-- ==== Sys2Proof/Word.lean ====
section
/-! DEFINITION. The types of the operation word of 30_encoding.md R50 and of its three fields, for the
reference `SAMPLE_W = 16`. -/

namespace Sys2Proof

/-- One operation word: `W = 3 + 2*SAMPLE_W = 35` bits (30_encoding.md R50). -/
abbrev OpWord := BitVec 35

/-- One operand field, `A` or `B`: `SAMPLE_W = 16` bits (30_encoding.md R50). -/
abbrev OperandField := BitVec 16

/-- The 3-bit operation code field (30_encoding.md R50). -/
abbrev OpField := BitVec 3

end Sys2Proof
end

