-- ==== Sys2Proof/Config.lean ====
section
/-! DEFINITION. The implementation parameters of 00_scope.md R5, at the values this hardware
takes, and the types of the operands that parameters and register map give the operations. -/

namespace Sys2Proof

/-- `SAMPLE_T`, the type of samples and thresholds: the rationals, the instance R5 recommends, counted in
millivolts (log 3). Every unit function is written over any order, so nothing but the order is used (R6). -/
abbrev SampleT := Rat

/-- The two values of `HEX_PAD` (44_group_decoder.md R119, R121). -/
inductive HexPad where
  | fixed
  | minimal
deriving DecidableEq, Repr

/-- The two register numbers that address no register (20_memory.md R45, 30_encoding.md R56). -/
inductive ReservedReg where
  | six
  | seven
deriving DecidableEq, Repr

/-- The operands `reg, v` of `CFGW`: `v` is a value of the type of the register that `reg` names (45_operations.md
R137). A reserved number carries no value, since 30_encoding.md R53 assembles none for it (log 12). -/
inductive CfgWrite where
  | thrLow (v : SampleT)
  | thrHigh (v : SampleT)
  | risingEdge (v : Bool)
  | groupSize (v : Nat)
  | msbFirst (v : Bool)
  | asHex (v : Bool)
  | reserved (r : ReservedReg)
deriving DecidableEq, Repr

/-- The eight mnemonics of 30_encoding.md R52. -/
inductive Mnemonic where
  | NOP | START | SMP2 | SMPC | SMPD | END | CFGW | RSVD
deriving DecidableEq, Repr

namespace Config

/-- `CNT_W`, the width of the four counters: `none` is unbounded, the value R5 gives this hardware (log 4). -/
def cntW : Option Nat := none

/-- `GROUP_MAX`, the largest legal `GROUP_SIZE`: `none` is unbounded, the value R5 gives (log 8). -/
def groupMax : Option Nat := none

/-- `HEX_PAD`: `fixed`, the value R5 gives (log 9). -/
def hexPad : HexPad := .fixed

/-- `DEFAULT_RISING`, the reset value of `RISING_EDGE`: 1, the value R5 gives (log 10). -/
def defaultRising : Bool := true

end Config

end Sys2Proof
end

