-- ==== Sys2Proof/Syntax.lean ====
section
/-! DEFINITION. The abstract operations `Op` of 10_state.md R29 and 30_encoding.md R62: one constructor per row of
opcode_table.json. -/

namespace Sys2Proof

/-- The operations of the block (30_encoding.md R52). -/
inductive Instr where
  /-- `NOP` -/
  | nop
  /-- `START` -/
  | start
  /-- `SMP2 c, d`: the clock sample and the data sample of one time index -/
  | smp2 (c d : SampleT)
  /-- `SMPC c`: a clock sample alone -/
  | smpc (c : SampleT)
  /-- `SMPD d`: a data sample alone -/
  | smpd (d : SampleT)
  /-- `END` -/
  | endRun
  /-- `CFGW reg, v` -/
  | cfgw (w : CfgWrite)
  /-- the reserved code `RSVD` -/
  | rsvd
deriving DecidableEq, Repr

end Sys2Proof
end

