-- ==== Sys2Proof/WellFormed.lean ====
section
/-! DEFINITION. Which operations the reference word encoding can present (30_encoding.md R51, R62; 93 U22). -/

namespace Sys2Proof

/-- A sample or threshold that the 16-bit field can hold: a whole number of millivolts in -32768 .. 32767 (R51). -/
def SampleT.fits (x : SampleT) : Bool :=
  x.den == 1 && decide (-32768 ≤ x.num) && decide (x.num ≤ 32767)

/-- The `CFGW` operands the word encoding can hold; `GROUP_SIZE` is an unsigned 16-bit field (R53). -/
def CfgWrite.wf : CfgWrite → Bool
  | .thrLow v => SampleT.fits v
  | .thrHigh v => SampleT.fits v
  | .risingEdge _ => true
  | .groupSize g => decide (g < 65536)
  | .msbFirst _ => true
  | .asHex _ => true
  | .reserved _ => true

/-- The operations the word encoding can hold. The machine itself runs every `Instr`, these and the others: the
abstract level has no such limit (R51). -/
def Instr.wf : Instr → Bool
  | .nop => true
  | .start => true
  | .smp2 c d => SampleT.fits c && SampleT.fits d
  | .smpc c => SampleT.fits c
  | .smpd d => SampleT.fits d
  | .endRun => true
  | .cfgw w => w.wf
  | .rsvd => true

end Sys2Proof
end

