-- ==== Sys2Proof/Decode.lean ====
section
/-! DEFINITION. `decode_word` and `encode_word` (30_encoding.md R50 to R58, R62). -/

namespace Sys2Proof

/-! ## Fields -/

/-- `op = w[34:32]`. -/
def opField (w : OpWord) : OpField := w.extractLsb' 32 3

/-- `A = w[31:16]`. -/
def aField (w : OpWord) : OperandField := w.extractLsb' 16 16

/-- `B = w[15:0]`. -/
def bField (w : OpWord) : OperandField := w.extractLsb' 0 16

/-- The word with the three given fields, `op` at the top. -/
def wordOf (op : OpField) (a b : OperandField) : OpWord := op ++ a ++ b

/-- The mnemonic of an operation. -/
def Instr.mnemonic : Instr → Mnemonic
  | .nop => .NOP
  | .start => .START
  | .smp2 _ _ => .SMP2
  | .smpc _ => .SMPC
  | .smpd _ => .SMPD
  | .endRun => .END
  | .cfgw _ => .CFGW
  | .rsvd => .RSVD

/-! ## Decoding -/

/-- `sample(f) = sext(f)`: the signed two's-complement count of millivolts (R51, R53). -/
def sampleOfField (f : OperandField) : SampleT := ((f.toInt : Int) : Rat)

/-- The operands of `CFGW` (R53, R54): the register number is `A[2:0]`, the value is assembled by the register's
type. -/
def decodeCfg (a b : OperandField) : CfgWrite :=
  match a.getLsbD 2, a.getLsbD 1, a.getLsbD 0 with
  | false, false, false => .thrLow (sampleOfField b)
  | false, false, true  => .thrHigh (sampleOfField b)
  | false, true,  false => .risingEdge (b.getLsbD 0)
  | false, true,  true  => .groupSize b.toNat
  | true,  false, false => .msbFirst (b.getLsbD 0)
  | true,  false, true  => .asHex (b.getLsbD 0)
  | true,  true,  false => .reserved .six
  | true,  true,  true  => .reserved .seven

/-- `decode_word` (R52, R53, R62): the operation of a word, by its three `op` bits. It is total (R58). -/
def decode (w : OpWord) : Instr :=
  match (opField w).getLsbD 2, (opField w).getLsbD 1, (opField w).getLsbD 0 with
  | false, false, false => .nop
  | false, false, true  => .start
  | false, true,  false => .smp2 (sampleOfField (aField w)) (sampleOfField (bField w))
  | false, true,  true  => .smpc (sampleOfField (aField w))
  | true,  false, false => .smpd (sampleOfField (bField w))
  | true,  false, true  => .endRun
  | true,  true,  false => .cfgw (decodeCfg (aField w) (bField w))
  | true,  true,  true  => .rsvd

/-- Why a number is not decoded. -/
inductive DecodeReject where
  /-- the number has a bit above bit 34: the `op_word` port has no such bit (R50) -/
  | widerThanOpWord
deriving DecidableEq, Repr

/-- The operation word that a number stands for: every number below `2^35` is one, no other is. -/
def opWordOfNat (w : Nat) : Except DecodeReject OpWord :=
  if w < 2 ^ 35 then .ok (BitVec.ofNat 35 w) else .error .widerThanOpWord

/-- Decoding of a number, rejecting by name what is no operation word. -/
def decodeNat (w : Nat) : Except DecodeReject Instr :=
  match opWordOfNat w with
  | .ok v => .ok (decode v)
  | .error r => .error r

/-- The decoder as the opcode table numbers a row's bits: bits of `w` from `nbits` up are 0. -/
def decodeTableWord (nbits w : Nat) : Option Instr :=
  match decodeNat (w % 2 ^ nbits) with
  | .ok i => some i
  | .error _ => none

/-! ## Encoding -/

/-- The operation code of a mnemonic (R52). -/
def Mnemonic.code : Mnemonic → OpField
  | .NOP => 0b000#3
  | .START => 0b001#3
  | .SMP2 => 0b010#3
  | .SMPC => 0b011#3
  | .SMPD => 0b100#3
  | .END => 0b101#3
  | .CFGW => 0b110#3
  | .RSVD => 0b111#3

/-- The register number of a `CFGW` (20_memory.md R45, R54). -/
def CfgWrite.regNumber : CfgWrite → Nat
  | .thrLow _ => 0
  | .thrHigh _ => 1
  | .risingEdge _ => 2
  | .groupSize _ => 3
  | .msbFirst _ => 4
  | .asHex _ => 5
  | .reserved .six => 6
  | .reserved .seven => 7

/-- The field of a sample: its 16 low bits in two's complement (R51). -/
def fieldOfSample (x : SampleT) : OperandField := BitVec.ofInt 16 x.num

/-- The field of a one-bit value: the bit at `B[0]`, zeros above (R53, R57). -/
def fieldOfBit (b : Bool) : OperandField := if b then 1#16 else 0#16

/-- The field `A` of an operation, zeros where ignored (R57). -/
def Instr.fieldA : Instr → OperandField
  | .nop => 0#16
  | .start => 0#16
  | .smp2 c _ => fieldOfSample c
  | .smpc c => fieldOfSample c
  | .smpd _ => 0#16
  | .endRun => 0#16
  | .cfgw w => BitVec.ofNat 16 w.regNumber
  | .rsvd => 0#16

/-- The field `B` of a `CFGW`. -/
def CfgWrite.fieldB : CfgWrite → OperandField
  | .thrLow v => fieldOfSample v
  | .thrHigh v => fieldOfSample v
  | .risingEdge v => fieldOfBit v
  | .groupSize g => BitVec.ofNat 16 g
  | .msbFirst v => fieldOfBit v
  | .asHex v => fieldOfBit v
  | .reserved _ => 0#16

/-- The field `B` of an operation, zeros where ignored (R57). -/
def Instr.fieldB : Instr → OperandField
  | .nop => 0#16
  | .start => 0#16
  | .smp2 _ d => fieldOfSample d
  | .smpc _ => 0#16
  | .smpd d => fieldOfSample d
  | .endRun => 0#16
  | .cfgw w => w.fieldB
  | .rsvd => 0#16

/-- `encode_word` on what the word can hold (R62). -/
def encode (i : Instr) : OpWord := wordOf i.mnemonic.code i.fieldA i.fieldB

/-- Why an operation has no word. -/
inductive EncodeReject where
  /-- a sample or threshold that is not a whole number of millivolts in range, or a `GROUP_SIZE` above 65535 (93 U22) -/
  | notPresentable
deriving DecidableEq, Repr

/-- `encode_word`, refusing what the reference word cannot hold (93 U22). -/
def encodeWord (i : Instr) : Except EncodeReject OpWord :=
  if i.wf then .ok (encode i) else .error .notPresentable

/-! ## The table and the ignored bits -/

/-- One row of opcode_table.json. -/
structure OpRow where
  mnemonic : Mnemonic
  pattern  : OpWord
  mask     : OpWord
deriving DecidableEq, Repr

/-- The eight rows (R52): `match = op << 32`, `mask = 7 << 32`. -/
def opcodeTable : List OpRow :=
  [⟨.NOP,   0x000000000#35, 0x700000000#35⟩, ⟨.START, 0x100000000#35, 0x700000000#35⟩,
   ⟨.SMP2,  0x200000000#35, 0x700000000#35⟩, ⟨.SMPC,  0x300000000#35, 0x700000000#35⟩,
   ⟨.SMPD,  0x400000000#35, 0x700000000#35⟩, ⟨.END,   0x500000000#35, 0x700000000#35⟩,
   ⟨.CFGW,  0x600000000#35, 0x700000000#35⟩, ⟨.RSVD,  0x700000000#35, 0x700000000#35⟩]

/-- A word matches a row. -/
def OpRow.covers (r : OpRow) (w : OpWord) : Bool := w &&& r.mask == r.pattern

/-- The bits of field `B` that a `CFGW` examines (R53). -/
def CfgWrite.usedB : CfgWrite → OperandField
  | .thrLow _ => 0xFFFF#16
  | .thrHigh _ => 0xFFFF#16
  | .risingEdge _ => 1#16
  | .groupSize _ => 0xFFFF#16
  | .msbFirst _ => 1#16
  | .asHex _ => 1#16
  | .reserved _ => 0#16

/-- The bits of a word that its operation examines (R53, R57): the others are ignored. -/
def Instr.usedBits : Instr → OpWord
  | .nop => wordOf 7#3 0#16 0#16
  | .start => wordOf 7#3 0#16 0#16
  | .smp2 _ _ => wordOf 7#3 0xFFFF#16 0xFFFF#16
  | .smpc _ => wordOf 7#3 0xFFFF#16 0#16
  | .smpd _ => wordOf 7#3 0#16 0xFFFF#16
  | .endRun => wordOf 7#3 0#16 0#16
  | .cfgw w => wordOf 7#3 7#16 w.usedB
  | .rsvd => wordOf 7#3 0#16 0#16

end Sys2Proof
end

