-- ==== Sys2Proof/Machine/State.lean ====
section
/-! DEFINITION. The state of the block (10_state.md), its reset value, its events, and the two ways a step can stop. -/

namespace Sys2Proof.Machine

/-- The two channels: the sampled SPI clock line and the SPI data line (00_scope.md R9). -/
inductive Chan where
  | clk
  | dat
deriving DecidableEq, Repr

/-- The state of a comparator, `hs[ch]` (10_state.md R19). -/
inductive Hyst where
  | undet
  | low
  | high
deriving DecidableEq, Repr

/-- `phase` (10_state.md R18). -/
inductive Phase where
  | idle
  | run
  | done
deriving DecidableEq, Repr

/-- The values of `cause`; their codes are in Machine/Flags.lean (60_exceptions.md R161). -/
inductive Cause where
  | none
  | ambigClk
  | ambigDat
  | lenMismatch
  | indivisible
  | badConfig
  | protocol
deriving DecidableEq, Repr

/-- The names of the six sticky flags (10_state.md R26). -/
inductive ErrFlag where
  | ambigClk
  | ambigDat
  | len
  | indiv
  | cfg
  | proto
deriving DecidableEq, Repr

/-- The output events (10_state.md R30). -/
inductive Event where
  /-- `DIG(ch, b)` -/
  | dig (ch : Chan) (b : Bool)
  /-- `EDGE` -/
  | edge
  /-- `BIT(b)` -/
  | bit (b : Bool)
  /-- `VAL(v)` -/
  | val (v : Nat)
  /-- `HEX(s)` -/
  | hex (s : List Char)
  /-- `FIN(c)` -/
  | fin (c : Cause)
deriving DecidableEq, Repr

/-- What the host presents in one step (10_state.md R29): the levels of the pins `rst` and `op_word`, or, at the
abstract level, the `RESET` action or an `Op`. -/
inductive Input where
  | pins (rst : Bool) (opWord : OpWord)
  | reset
  | op (i : Instr)
deriving DecidableEq, Repr

/-- An action of the step function (45_operations.md R130). -/
inductive Action where
  | reset
  | op (i : Instr)
deriving DecidableEq, Repr

/-- The configuration registers (10_state.md R11 to R16). -/
structure CfgRegs where
  thrLow     : SampleT
  thrHigh    : SampleT
  risingEdge : Bool
  groupSize  : Nat
  msbFirst   : Bool
  asHex      : Bool
deriving DecidableEq, Repr

/-- The registers of one comparator: `hs[ch]` and `n[ch]` (10_state.md R19, R20). -/
structure CmpRegs where
  hs : Hyst
  n  : Nat
deriving DecidableEq, Repr

/-- The registers of the edge detector (10_state.md R21). -/
structure EdgRegs where
  cprev      : Bool
  cprevValid : Bool
deriving DecidableEq, Repr

/-- The six sticky flags (10_state.md R26). -/
structure Flags where
  ambigClk : Bool
  ambigDat : Bool
  len      : Bool
  indiv    : Bool
  cfg      : Bool
  proto    : Bool
deriving DecidableEq, Repr

/-- The state of the block: the list of 10_state.md R10, the events of the step just taken (R30) and the actions the
host has yet to present (R33; log 1). -/
structure State where
  cfg    : CfgRegs
  phase  : Phase
  clk    : CmpRegs
  dat    : CmpRegs
  edg    : EdgRegs
  lbit   : Bool
  sh     : Nat
  cnt    : Nat
  nBits  : Nat
  nVals  : Nat
  flags  : Flags
  events : List Event
  inputs : List Input
deriving DecidableEq, Repr

/-- The reasons of outcome `fault`: a step reads a value the spec does not define. -/
inductive Fault where
  /-- A paired beat with the gate open needs `bit(UNDET)`, which is not defined (00_scope.md R7). Raised by `SMP2`;
  no state that a run reaches has it (10_state.md R34 item 4). Safe: the model stops. -/
  | undeterminedLevel
deriving DecidableEq, Repr

/-- The reasons of outcome `refused`: what the spec tells a model to give no meaning. -/
inductive Refusal where
  /-- An arm of `exec` without a meaning; none is left. Safe. -/
  | notModelled (mnemonic : String)
  /-- The host presents no action in this step (93 U26). Raised by `step` when `inputs` is empty. Safe. -/
  | noAction
  /-- A sample beat in `RUN` with `THR_LOW > THR_HIGH` (40 R77, 93 U1). Raised by `SMP2`, `SMPC`, `SMPD`; no state that
  a run reaches has it. Safe. -/
  | invertedThresholds
  /-- A bit is latched with `GROUP_SIZE < 1` (93 U10). Raised by `SMP2`; no state that a run reaches has it. Safe. -/
  | zeroGroupSize
  /-- A counter would pass `2^CNT_W - 1` with a finite `CNT_W` (00_scope.md R5, 93 U20). Raised by `SMP2`, `SMPC`,
  `SMPD`; `CNT_W` is unbounded here, so no step does. Safe. -/
  | counterOverflow
deriving DecidableEq, Repr

/-! ## Reset values (10_state.md R32) -/

/-- The configuration registers after reset: the source's defaults 0.8 V and 2.0 V in millivolts, 8, 1, 1, and
`DEFAULT_RISING`. -/
def CfgRegs.reset : CfgRegs :=
  { thrLow := 800, thrHigh := 2000, risingEdge := Config.defaultRising, groupSize := 8, msbFirst := true,
    asHex := true }

/-- A comparator after reset. -/
def CmpRegs.reset : CmpRegs := { hs := .undet, n := 0 }

/-- The edge detector after reset. -/
def EdgRegs.reset : EdgRegs := { cprev := false, cprevValid := false }

/-- No flag set. -/
def Flags.clear : Flags :=
  { ambigClk := false, ambigDat := false, len := false, indiv := false, cfg := false, proto := false }

/-- The state after the `RESET` action (70_reset_and_hazards.md R190), with no action presented yet. -/
def State.reset : State :=
  { cfg := CfgRegs.reset, phase := .idle, clk := CmpRegs.reset, dat := CmpRegs.reset, edg := EdgRegs.reset,
    lbit := false, sh := 0, cnt := 0, nBits := 0, nVals := 0, flags := Flags.clear, events := [], inputs := [] }

end Sys2Proof.Machine
end

