-- ==== Sys2Proof/Machine/Flags.lean ====
section
/-! DEFINITION. The sticky flags and the status signals derived from them (10_state.md R26, R27; 60_exceptions.md). -/

namespace Sys2Proof.Machine

/-- Reads one flag. -/
def Flags.get (f : Flags) : ErrFlag → Bool
  | .ambigClk => f.ambigClk
  | .ambigDat => f.ambigDat
  | .len => f.len
  | .indiv => f.indiv
  | .cfg => f.cfg
  | .proto => f.proto

/-- `flags.E <- 1` (00_scope.md R8). -/
def Flags.set (f : Flags) : ErrFlag → Flags
  | .ambigClk => { f with ambigClk := true }
  | .ambigDat => { f with ambigDat := true }
  | .len => { f with len := true }
  | .indiv => { f with indiv := true }
  | .cfg => { f with cfg := true }
  | .proto => { f with proto := true }

/-- The flag of an ambiguous first sample of channel `ch`, `ERR_AMBIG_ch` (60_exceptions.md R162, R163). -/
def Chan.ambigFlag : Chan → ErrFlag
  | .clk => .ambigClk
  | .dat => .ambigDat

/-- The bit of a flag in `flags` (10_state.md R26). -/
def ErrFlag.index : ErrFlag → Nat
  | .ambigClk => 0
  | .ambigDat => 1
  | .len => 2
  | .indiv => 3
  | .cfg => 4
  | .proto => 5

/-- `fault_any = (flags != 0)` (10_state.md R27). -/
def Flags.any (f : Flags) : Bool :=
  f.ambigClk || f.ambigDat || f.len || f.indiv || f.cfg || f.proto

/-- `cause`: the set flag of highest priority (10_state.md R27, 60_exceptions.md R168). -/
def Flags.cause (f : Flags) : Cause :=
  if f.proto then .protocol
  else if f.cfg then .badConfig
  else if f.ambigClk then .ambigClk
  else if f.ambigDat then .ambigDat
  else if f.len then .lenMismatch
  else if f.indiv then .indivisible
  else .none

/-- The cause codes (60_exceptions.md R161); code 7 is never produced. -/
def Cause.code : Cause → BitVec 3
  | .none => 0#3
  | .ambigClk => 1#3
  | .ambigDat => 2#3
  | .lenMismatch => 3#3
  | .indivisible => 4#3
  | .badConfig => 5#3
  | .protocol => 6#3

/-- `flags[5:0]` as a word (10_state.md R26). -/
def Flags.bits (f : Flags) : BitVec 6 :=
  BitVec.ofBool f.proto ++ BitVec.ofBool f.cfg ++ BitVec.ofBool f.indiv ++ BitVec.ofBool f.len
    ++ BitVec.ofBool f.ambigDat ++ BitVec.ofBool f.ambigClk

/-- `busy = (phase = RUN)` (10_state.md R27). -/
def State.busy (s : State) : Bool := s.phase == .run

/-- `done = (phase = DONE)` (10_state.md R27). -/
def State.isDone (s : State) : Bool := s.phase == .done

/-- `STATUS`: `STATUS[0] = busy`, `STATUS[1] = done`, `STATUS[7:2] = flags[5:0]` (10_state.md R27). -/
def State.status (s : State) : BitVec 8 :=
  s.flags.bits ++ BitVec.ofBool s.isDone ++ BitVec.ofBool s.busy

end Sys2Proof.Machine
end

