-- ==== Sys2Proof/Machine/Operands.lean ====
section
/-! DEFINITION. Operands of the operations: the registers a channel owns, the digital level of a comparator state, and
the configuration register space. -/

namespace Sys2Proof.Machine

/-- `bit(LOW) = 0`, `bit(HIGH) = 1`; `bit(UNDET)` is not defined (00_scope.md R7). -/
def Hyst.bit? : Hyst → Option Bool
  | .undet => none
  | .low => some false
  | .high => some true

/-- The registers of comparator `CMP[ch]` (40_hysteresis_comparator.md R71). -/
def State.cmp (s : State) : Chan → CmpRegs
  | .clk => s.clk
  | .dat => s.dat

/-- Writes the registers of comparator `CMP[ch]`, and nothing else. -/
def State.setCmp (s : State) (ch : Chan) (r : CmpRegs) : State :=
  match ch with
  | .clk => { s with clk := r }
  | .dat => { s with dat := r }

/-- `CFG[reg] <- v` (45_operations.md R137); `none` for the register numbers 6 and 7, which address no register
(30_encoding.md R56). No value is checked (10_state.md R17 b). -/
def CfgRegs.write (c : CfgRegs) : CfgWrite → Option CfgRegs
  | .thrLow v => some { c with thrLow := v }
  | .thrHigh v => some { c with thrHigh := v }
  | .risingEdge v => some { c with risingEdge := v }
  | .groupSize v => some { c with groupSize := v }
  | .msbFirst v => some { c with msbFirst := v }
  | .asHex v => some { c with asHex := v }
  | .reserved _ => none

/-- `n <= m` where `none` is an unbounded limit. -/
def withinLimit (n : Nat) : Option Nat → Bool
  | none => true
  | some m => decide (n ≤ m)

/-- The configuration is legal at `START` (10_state.md R17 c): `THR_LOW <= THR_HIGH` and
`1 <= GROUP_SIZE <= GROUP_MAX`. -/
def CfgRegs.legal (c : CfgRegs) : Bool :=
  decide (c.thrLow ≤ c.thrHigh) && decide (1 ≤ c.groupSize) && withinLimit c.groupSize Config.groupMax

end Sys2Proof.Machine
end

