-- ==== Sys2Proof/Machine/Ops.lean ====
section
/-! DEFINITION. The operations that the meanings share: events, taking a fault, clearing the run state, the counter
width, and taking the host's next action. -/

namespace Sys2Proof.Machine

/-- What a step of the block answers. -/
abbrev Result := Host.Outcome State Fault Refusal

/-- The strobes of the step before are over: an event is visible only in its own step (10_state.md R30). -/
def State.quiet (s : State) : State := { s with events := [] }

/-- `emit EV(args)` (00_scope.md R8): appends to the events of the step. -/
def State.emit (s : State) (e : Event) : State := { s with events := s.events ++ [e] }

/-- TAKING A FAULT (60_exceptions.md R160; `raise E(info)` of 00_scope.md R8): the flag is set in this step and
nothing else happens. No register is saved and control goes nowhere; the quantities of `info` are registers already
(R171). Returning from one: there is no return within a run (R173), only `State.clearRun`. -/
def State.raise (s : State) (e : ErrFlag) : State := { s with flags := s.flags.set e }

/-- Every run-state register and every flag to its reset value (45_operations.md R132, 10_state.md R32). -/
def State.clearRun (s : State) : State :=
  { s with clk := CmpRegs.reset, dat := CmpRegs.reset, edg := EdgRegs.reset, lbit := false, sh := 0, cnt := 0,
           nBits := 0, nVals := 0, flags := Flags.clear }

/-- Each of the four counters is a number of `w` bits; `none` is unbounded (00_scope.md R5). -/
def State.countersFit (s : State) (w : Option Nat) : Bool :=
  match w with
  | none => true
  | some k => decide (s.clk.n < 2 ^ k) && decide (s.dat.n < 2 ^ k) && decide (s.nBits < 2 ^ k)
      && decide (s.nVals < 2 ^ k)

/-- The next state `t`, unless a counter has passed `2^CNT_W - 1`: that run is refused and nothing wraps (00_scope.md
R5, 93 U20; log 4). -/
def keepCounters (w : Option Nat) (t : State) : Result :=
  if t.countersFit w then .next t else .refused .counterOverflow

/-- A sample beat (45_operations.md R133 to R135): outside `RUN` it is a protocol fault; with inverted thresholds it has
no meaning (40_hysteresis_comparator.md R77; log 5); else `body` says what it does. -/
def sampleBeat (s : State) (body : State → Result) : Result :=
  if s.phase ≠ .run then .next (s.quiet.raise .proto)
  else if s.cfg.thrLow ≤ s.cfg.thrHigh then body s.quiet
  else .refused .invertedThresholds

/-- What the levels on the pins, or the abstract action, ask for: `rst` wins over `op_word` (10_state.md R29). -/
def actionOf (decoder : OpWord → Instr) : Input → Action
  | .pins true _ => .reset
  | .pins false w => .op (decoder w)
  | .reset => .reset
  | .op i => .op i

/-- The `RESET` action (70_reset_and_hazards.md R190). The actions the host has yet to present are the host's and stay
(log 1). -/
def State.resetAction (s : State) : State := { State.reset with inputs := s.inputs }

end Sys2Proof.Machine
end

