-- ==== Sys2Proof/Machine/Control.lean ====
section
/-! DEFINITION. The operations without a sample: NOP, START, END, CFGW and the reserved code (45_operations.md). -/

namespace Sys2Proof.Machine

/-- `NOP` (R131): nothing, in every phase. -/
def execNop (s : State) : Result := .next s.quiet

/-- `START` (R132): in `RUN` a protocol fault; else the run state is cleared, and the run is opened or refused. -/
def execStart (s : State) : Result :=
  if s.phase = .run then .next (s.quiet.raise .proto)
  else
    let t := s.quiet.clearRun
    if t.cfg.legal then .next { t with phase := .run }
    else .next ({ t.raise .cfg with phase := .done }.emit (.fin .badConfig))

/-- `END` (R136): outside `RUN` a protocol fault; else an unfinished group is a fault if no flag is set, the run is
closed and its cause reported. -/
def execEndRun (s : State) : Result :=
  if s.phase ≠ .run then .next (s.quiet.raise .proto)
  else
    let t := if !s.flags.any && s.cnt != 0 then s.quiet.raise .indiv else s.quiet
    .next ({ t with phase := .done }.emit (.fin t.flags.cause))

/-- `CFGW reg, v` (R137): in `RUN`, or to register 6 or 7, a protocol fault and nothing written; else the write. -/
def execCfgw (w : CfgWrite) (s : State) : Result :=
  match s.cfg.write w with
  | none => .next (s.quiet.raise .proto)
  | some c => if s.phase = .run then .next (s.quiet.raise .proto) else .next { s.quiet with cfg := c }

/-- The reserved code (R138): a protocol fault in every phase. -/
def execRsvd (s : State) : Result := .next (s.quiet.raise .proto)

end Sys2Proof.Machine
end

