-- ==== Sys2Proof/Machine/Comparator.lean ====
section
/-! DEFINITION. The comparator unit CMP (40_hysteresis_comparator.md). The level functions are written over any type
with an order, as 00_scope.md R5 asks. -/

namespace Sys2Proof.Machine

/-- The first sample of a channel in a run (R72): `>=` is tested first (R76); `undet` is the ambiguous case. -/
def cmpFirst {α : Type} [LE α] [DecidableLE α] (lo hi v : α) : Hyst :=
  if hi ≤ v then .high else if v ≤ lo then .low else .undet

/-- Every later sample of a channel in a run (R73). -/
def cmpLater {α : Type} [LE α] [DecidableLE α] (lo hi : α) (hs : Hyst) (v : α) : Hyst :=
  if hs = .low ∧ hi ≤ v then .high else if hs = .high ∧ v ≤ lo then .low else hs

/-- The state of a comparator after a sample: R72 on the first sample of the run, R73 on every later one. -/
def cmpNext {α : Type} [LE α] [DecidableLE α] (lo hi : α) (r : CmpRegs) (v : α) : Hyst :=
  if r.n = 0 then cmpFirst lo hi v else cmpLater lo hi r.hs v

/-- The sample is an ambiguous first sample (R72, R75). -/
def isAmbiguous {α : Type} [LE α] [DecidableLE α] (lo hi : α) (r : CmpRegs) (v : α) : Bool :=
  r.n == 0 && cmpFirst lo hi v == .undet

/-- `if hs[ch] != UNDET then emit DIG(ch, bit(hs[ch]))` (R74). -/
def State.emitDig (s : State) (ch : Chan) : State :=
  match (s.cmp ch).hs.bit? with
  | some b => s.emit (.dig ch b)
  | none => s

/-- `CMP_STEP(ch, v)` (R74). Requires `THR_LOW <= THR_HIGH`: it has no meaning for an inverted pair (R77), and no
operation calls it there (log 5; log 19). -/
def cmpStep (ch : Chan) (v : SampleT) (s : State) : State :=
  let r := s.cmp ch
  let t := s.setCmp ch { hs := cmpNext s.cfg.thrLow s.cfg.thrHigh r v, n := r.n + 1 }
  let u := if isAmbiguous s.cfg.thrLow s.cfg.thrHigh r v then t.raise ch.ambigFlag else t
  u.emitDig ch

end Sys2Proof.Machine
end

