-- ==== Sys2Proof/Machine/BitShifter.lean ====
section
/-! DEFINITION. The bit shifter SHF (43_bit_shifter.md). -/

namespace Sys2Proof.Machine

/-- `SHIFT_IN(b)` (R107), with the registers it reads as arguments: `(sh << 1) | b` when `MSB_FIRST = 1`, else
`sh | (b << cnt)`. -/
def shiftIn (msbFirst : Bool) (sh cnt : Nat) (b : Bool) : Nat :=
  if msbFirst then (sh <<< 1) ||| b.toNat else sh ||| (b.toNat <<< cnt)

/-- `sum over j of a[j] * 2^j`, for `a[j]` from weight `2^j` on. -/
def weightedSum : Nat → List Bool → Nat
  | _, [] => 0
  | j, b :: bs => b.toNat * 2 ^ j + weightedSum (j + 1) bs

/-- `chunk_value(c, msb_first)` (R105), the source's formula for a whole group. -/
def chunkValue (c : List Bool) (msbFirst : Bool) : Nat :=
  weightedSum 0 (if msbFirst then c.reverse else c)

/-- The bits of a group through `SHIFT_IN` in order (R111), from the partial value `sh` after `cnt` bits. -/
def shiftAll (msbFirst : Bool) : Nat → Nat → List Bool → Nat
  | sh, _, [] => sh
  | sh, cnt, b :: bs => shiftAll msbFirst (shiftIn msbFirst sh cnt b) (cnt + 1) bs

/-- `EXPAND(v, g, msb_first)` (44_group_decoder.md R124), the inverse of `chunk_value`; no hardware unit. -/
def expand (v g : Nat) (msbFirst : Bool) : List Bool :=
  (List.range g).map fun k => decide ((v >>> (if msbFirst then g - 1 - k else k)) % 2 = 1)

end Sys2Proof.Machine
end

