-- ==== Sys2Proof/Machine/GroupDecoder.lean ====
section
/-! DEFINITION. The group decoder GRP (44_group_decoder.md). -/

namespace Sys2Proof.Machine

/-- `DIGIT(x)` for `x` in `0 .. 15`: lowercase (R119). -/
def hexDigit (x : Nat) : Char :=
  ['0', '1', '2', '3', '4', '5', '6', '7', '8', '9', 'a', 'b', 'c', 'd', 'e', 'f'].getD x '0'

/-- The number of digits, `ceil(g / 4)` (R119). -/
def hexWidth (g : Nat) : Nat := (g + 3) / 4

/-- The `nd` hexadecimal digits of `v`, the most significant first (R119). -/
def hexDigits (v nd : Nat) : List Char :=
  (List.range nd).map fun i => hexDigit ((v >>> (4 * (nd - 1 - i))) % 16)

/-- Every leading digit `0` removed except the last digit (R121). -/
def stripZeros (ds : List Char) : List Char :=
  match ds.dropWhile (· == '0') with
  | [] => ['0']
  | d :: rest => d :: rest

/-- `HEXSTR(v, g)` for either value of `HEX_PAD` (R119, R121). Requires `g >= 1` and `v < 2^g`: what it returns for
others is the model's choice and has no meaning (93 U10; log 19). -/
def hexStr (pad : HexPad) (v g : Nat) : List Char :=
  let ds := hexDigits v (hexWidth g)
  '0' :: 'x' :: (match pad with
    | .fixed => ds
    | .minimal => stripZeros ds)

/-- A full group (R117): `VAL(t)`, with `AS_HEX = 1` also `HEX`, and the unit starts the next group. -/
def groupDone (t : Nat) (s : State) : State :=
  let u := s.emit (.val t)
  let w := if s.cfg.asHex then u.emit (.hex (hexStr Config.hexPad t s.cfg.groupSize)) else u
  { w with nVals := w.nVals + 1, sh := 0, cnt := 0 }

/-- `GRP_STEP(b)` (R117). Requires `GROUP_SIZE >= 1`: it has no meaning for 0 (93 U10), and no operation calls it there
(log 6; log 19). -/
def grpStep (b : Bool) (s : State) : State :=
  let t := shiftIn s.cfg.msbFirst s.sh s.cnt b
  if s.cnt + 1 = s.cfg.groupSize then groupDone t s else { s with sh := t, cnt := s.cnt + 1 }

end Sys2Proof.Machine
end

