-- ==== Sys2Proof/Machine/DataLatch.lean ====
section
/-! DEFINITION. The data latch LAT (42_data_latch.md). -/

namespace Sys2Proof.Machine

/-- `LAT_STEP(e, qd)` (R96): at a qualifying edge the data level of the same beat is latched (R95, R97) and handed to
the group decoder. -/
def latStep (e qd : Bool) (s : State) : State :=
  if e then grpStep qd ({ s with lbit := qd, nBits := s.nBits + 1 }.emit (.bit qd)) else s

end Sys2Proof.Machine
end

