-- ==== Sys2Proof/Machine/EdgeDetector.lean ====
section
/-! DEFINITION. The clock edge detector EDG (41_clock_edge_detector.md). -/

namespace Sys2Proof.Machine

/-- `EDGE_Q(p, q, r)` (R87): previous level `p`, current level `q`, `r` selects rising edges. -/
def edgeQ (p q r : Bool) : Bool := (r && !p && q) || (!r && p && !q)

/-- The bit `e` that `EDG_STEP(qc)` returns (R88): no edge at the first paired beat of a run (R89). -/
def edgeSeen (s : State) (qc : Bool) : Bool := s.edg.cprevValid && edgeQ s.edg.cprev qc s.cfg.risingEdge

/-- What `EDG_STEP(qc)` writes and emits (R88). -/
def edgStep (qc : Bool) (s : State) : State :=
  let t := if edgeSeen s qc then s.emit .edge else s
  { t with edg := { cprev := qc, cprevValid := true } }

end Sys2Proof.Machine
end

