-- ==== Sys2Proof/Machine/Samples.lean ====
section
/-! DEFINITION. The sample operations SMP2, SMPC, SMPD (45_operations.md R133 to R135). -/

namespace Sys2Proof.Machine

/-- Edge detector and latch at a beat whose gate is open, with the two digital levels (R133). Without a group size a
latched bit has no meaning (93 U10; log 6). -/
def latchBeat (qc qd : Bool) (u : State) : Result :=
  let e := edgeSeen u qc
  if e && u.cfg.groupSize == 0 then .refused .zeroGroupSize
  else keepCounters Config.cntW (latStep e qd (edgStep qc u))

/-- A paired beat after both comparators have stepped (R133): with a flag set nothing downstream moves (the gate,
41_clock_edge_detector.md R90; 60_exceptions.md R170); else the levels go on to edge detector and latch. `bit(UNDET)` is
not defined (log 7). -/
def gatedBeat (u : State) : Result :=
  if u.flags.any then keepCounters Config.cntW u
  else
    match u.clk.hs.bit?, u.dat.hs.bit? with
    | some qc, some qd => latchBeat qc qd u
    | _, _ => .fault .undeterminedLevel

/-- `SMP2 c, d` (R133). -/
def execSmp2 (c d : SampleT) (s : State) : Result :=
  sampleBeat s fun t => gatedBeat (cmpStep .dat d (cmpStep .clk c t))

/-- `SMPC c` (R134). -/
def execSmpc (c : SampleT) (s : State) : Result :=
  sampleBeat s fun t => keepCounters Config.cntW ((cmpStep .clk c t).raise .len)

/-- `SMPD d` (R135). -/
def execSmpd (d : SampleT) (s : State) : Result :=
  sampleBeat s fun t => keepCounters Config.cntW ((cmpStep .dat d t).raise .len)

end Sys2Proof.Machine
end

