-- ==== Sys2Proof/Machine/Dispatch.lean ====
section
/-! DEFINITION. The meaning of every operation. -/

namespace Sys2Proof.Machine

def exec (i : Instr) (s : State) : Host.Outcome State Fault Refusal :=
  match i with
  | .nop => Sys2Proof.Machine.execNop s
  | .start => Sys2Proof.Machine.execStart s
  | .smp2 c d => Sys2Proof.Machine.execSmp2 c d s
  | .smpc c => Sys2Proof.Machine.execSmpc c s
  | .smpd d => Sys2Proof.Machine.execSmpd d s
  | .endRun => Sys2Proof.Machine.execEndRun s
  | .cfgw w => Sys2Proof.Machine.execCfgw w s
  | .rsvd => Sys2Proof.Machine.execRsvd s

end Sys2Proof.Machine
end

