-- ==== Sys2Proof/Machine/Step.lean ====
section
/-! DEFINITION. One step of the block: take the action the host presents and perform it (45_operations.md R130). -/

namespace Sys2Proof.Machine

/-- Performs one action (45_operations.md R130). -/
def perform (a : Action) (s : State) : Host.Outcome State Fault Refusal :=
  match a with
  | .reset => .next s.resetAction
  | .op i => exec i s

/-- `step`: the next action of the host is taken and performed. With none presented the model has no move (93 U26;
log 1). -/
def step (s : State) : Host.Outcome State Fault Refusal :=
  match s.inputs with
  | [] => .refused .noAction
  | x :: rest => perform (actionOf decode x) { s with inputs := rest }

/-- Places the operation word `w` on the `op_word` port, `rst` at 0, as the very next action of the host. A number
with a bit above bit 34 is no operation word: then the host presents nothing (log 16). -/
def State.withFetchWord (s : State) (nbits w : Nat) : State :=
  match opWordOfNat (w % 2 ^ nbits) with
  | .ok v => { s with inputs := .pins false v :: s.inputs }
  | .error _ => { s with inputs := [] }

end Sys2Proof.Machine
end

