-- ==== Sys2Proof/Machine/Several.lean ====
section
/-! DEFINITION. Several blocks side by side (20_memory.md R49, 60_exceptions.md R178): the product of single blocks. -/

namespace Sys2Proof.Machine

/-- Block `k` of a row of blocks takes one step; the others take none. R49 says 'product' and 'in parallel' and not
whether one step of the product moves one block or all: one is the model's choice (DESIGN CHOICE, log 20). -/
def stepAt : Nat → List State → Host.Outcome (List State) Fault Refusal
  | _, [] => .refused .noAction
  | 0, s :: rest =>
    match step s with
    | .next t => .next (t :: rest)
    | .fault r => .fault r
    | .refused r => .refused r
  | k + 1, s :: rest =>
    match stepAt k rest with
    | .next ts => .next (s :: ts)
    | .fault r => .fault r
    | .refused r => .refused r

end Sys2Proof.Machine
end

