-- ==== Sys2Proof/Machine/Batch.lean ====
section
/-! DEFINITION. The source's batch functions `digitize`, `latch`, `decode` and their pipeline
(40_hysteresis_comparator.md R70, 41_clock_edge_detector.md R85, 44_group_decoder.md R115, 45_operations.md R142).
They are normative for the result of a run (R143). -/

namespace Sys2Proof.Machine

/-- The errors of the batch functions. -/
inductive BatchErr where
  | ambig
  | len
  | indiv
deriving DecidableEq, Repr

/-- One element of the source's decoded sequence, `uint | string` (R115). -/
inductive OutElem where
  | int (v : Nat)
  | str (s : List Char)
deriving DecidableEq, Repr

/-- The loop of `digitize` from the state `st` on (R70). Requires `lo <= hi`, as `digitize` does (log 19). -/
def digitizeFrom {α : Type} [LE α] [DecidableLE α] (lo hi : α) : Bool → List α → List Bool
  | _, [] => []
  | st, v :: vs =>
    let st' := if hi ≤ v ∧ st = false then true else if v ≤ lo ∧ st = true then false else st
    st' :: digitizeFrom lo hi st' vs

/-- `digitize(s, lo, hi)` (R70). Requires `lo <= hi`: with an inverted pair the source gives no result (93 U1), and what
this total function returns there is the model's choice and has no meaning (DESIGN CHOICE, log 19). -/
def digitize {α : Type} [LE α] [DecidableLE α] (lo hi : α) : List α → Except BatchErr (List Bool)
  | [] => .ok []
  | v :: vs =>
    if hi ≤ v then .ok (true :: digitizeFrom lo hi true vs)
    else if v ≤ lo then .ok (false :: digitizeFrom lo hi false vs)
    else .error .ambig

/-- The loop of `latch` from index 1 on, `p` the clock level of the index before (R85). -/
def latchFrom (rising : Bool) : Bool → List Bool → List Bool → List Bool
  | p, q :: clock, d :: data =>
    if edgeQ p q rising then d :: latchFrom rising q clock data else latchFrom rising q clock data
  | _, _, _ => []

/-- `latch(clock, data, rising)` (R85). -/
def latch (clock data : List Bool) (rising : Bool) : Except BatchErr (List Bool) :=
  if clock.length ≠ data.length then .error .len
  else
    match clock, data with
    | q :: clock, _ :: data => .ok (latchFrom rising q clock data)
    | _, _ => .ok []

/-- The `m`-th chunk of `g` bits. -/
def chunk (bits : List Bool) (g m : Nat) : List Bool := (bits.drop (m * g)).take g

/-- The values of the complete chunks, in order (R115). Requires `g >= 1` (log 19). -/
def groupValues (bits : List Bool) (g : Nat) (msbFirst : Bool) : List Nat :=
  (List.range (bits.length / g)).map fun m => chunkValue (chunk bits g m) msbFirst

/-- The element that `decode` returns for a value (R115). -/
def present (g : Nat) (asHex : Bool) (v : Nat) : OutElem :=
  if asHex then .str (hexStr Config.hexPad v g) else .int v

/-- `decode(bits, g, msb_first, as_hex)` (R115). Requires `g >= 1`: what this total function returns for `g = 0` is the
model's choice and has no meaning (93 U10; DESIGN CHOICE, log 19). -/
def decodeBits (bits : List Bool) (g : Nat) (msbFirst asHex : Bool) : Except BatchErr (List OutElem) :=
  if bits.length % g ≠ 0 then .error .indiv
  else .ok ((groupValues bits g msbFirst).map (present g asHex))

/-- `PIPELINE(clock, data, lo, hi, rising, g, msb, hex)` (R142): the error is the cause it returns. Requires `lo <= hi`
and `g >= 1`, that is a legal configuration: what this total function returns for any other is the model's choice and
has no meaning (93 U1, U10; DESIGN CHOICE, log 19). -/
def pipeline (c : CfgRegs) (clock data : List SampleT) : Except Cause (List OutElem) :=
  match digitize c.thrLow c.thrHigh clock with
  | .error _ => .error .ambigClk
  | .ok qc =>
    match digitize c.thrLow c.thrHigh data with
    | .error _ => .error .ambigDat
    | .ok qd =>
      match latch qc qd c.risingEdge with
      | .error _ => .error .lenMismatch
      | .ok b =>
        match decodeBits b c.groupSize c.msbFirst c.asHex with
        | .error _ => .error .indivisible
        | .ok o => .ok o

end Sys2Proof.Machine
end

