-- ==== Sys2Proof/Machine/Ports.lean ====
section
/-! DEFINITION. The output ports of the block (10_state.md R30), as functions of the state after a step. -/

namespace Sys2Proof.Machine

/-- The event is `DIG(ch, b)`: its bit. -/
def Event.digBit? (ch : Chan) : Event → Option Bool
  | .dig c b => if c = ch then some b else none
  | .edge => none
  | .bit _ => none
  | .val _ => none
  | .hex _ => none
  | .fin _ => none

/-- The event is `EDGE`. -/
def Event.edge? : Event → Option Unit
  | .dig _ _ => none
  | .edge => some ()
  | .bit _ => none
  | .val _ => none
  | .hex _ => none
  | .fin _ => none

/-- The event is `BIT(b)`: its bit. -/
def Event.bit? : Event → Option Bool
  | .dig _ _ => none
  | .edge => none
  | .bit b => some b
  | .val _ => none
  | .hex _ => none
  | .fin _ => none

/-- The event is `VAL(v)`: its value. -/
def Event.val? : Event → Option Nat
  | .dig _ _ => none
  | .edge => none
  | .bit _ => none
  | .val v => some v
  | .hex _ => none
  | .fin _ => none

/-- The event is `HEX(s)`: its string. -/
def Event.hex? : Event → Option (List Char)
  | .dig _ _ => none
  | .edge => none
  | .bit _ => none
  | .val _ => none
  | .hex s => some s
  | .fin _ => none

/-- The event is `FIN(c)`: its cause. -/
def Event.fin? : Event → Option Cause
  | .dig _ _ => none
  | .edge => none
  | .bit _ => none
  | .val _ => none
  | .hex _ => none
  | .fin c => some c

/-- The ASCII codes of a hex string, the first character first (44_group_decoder.md R120; log 17). -/
def asciiCodes (s : List Char) : List (BitVec 8) := s.map fun c => BitVec.ofNat 8 c.toNat

/-- The output ports. A strobed port is `some payload` in a step that shows its event; `none` is strobe 0, where the
payload's level is unspecified (93 U17; log 13). `bit` is always driven from `lbit`. -/
structure OutPorts where
  clkDig    : Option Bool
  datDig    : Option Bool
  edge      : Bool
  bitValid  : Bool
  bit       : Bool
  val       : Option Nat
  hex       : Option (List (BitVec 8))
  fin       : Option (BitVec 3)
  status    : BitVec 8
  cause     : BitVec 3
  nClk      : Nat
  nDat      : Nat
  nBits     : Nat
  nVals     : Nat
  cfg       : CfgRegs
deriving DecidableEq, Repr

/-- The levels of the output ports after a step that left the state `s` (R30). -/
def State.ports (s : State) : OutPorts :=
  { clkDig := s.events.findSome? (Event.digBit? .clk), datDig := s.events.findSome? (Event.digBit? .dat),
    edge := (s.events.findSome? Event.edge?).isSome, bitValid := (s.events.findSome? Event.bit?).isSome,
    bit := s.lbit, val := s.events.findSome? Event.val?, hex := (s.events.findSome? Event.hex?).map asciiCodes,
    fin := (s.events.findSome? Event.fin?).map Cause.code, status := s.status, cause := s.flags.cause.code,
    nClk := s.clk.n, nDat := s.dat.n, nBits := s.nBits, nVals := s.nVals, cfg := s.cfg }

end Sys2Proof.Machine
end

