-- ==== Sys2Proof/Machine/Pseudo.lean ====
section
/-! DEFINITION. The pseudo-operations and the assembler lines of 30_encoding.md section 4. -/

namespace Sys2Proof.Machine

/-- The sample beats of a capture: paired beats, then the unpaired tail of the longer channel (R60). -/
def captureBeats (clock data : List SampleT) : List Instr :=
  List.zipWith Instr.smp2 clock data ++ (clock.drop data.length).map Instr.smpc
    ++ (data.drop clock.length).map Instr.smpd

/-- `CAPTURE clock, data` (R60). -/
def capture (clock data : List SampleT) : List Instr :=
  .start :: (captureBeats clock data ++ [.endRun])

/-- `CONFIG tl, th, re, gs, mf, ah` (R61): `none` is the operand `-`. -/
def configure (tl th : Option SampleT) (re : Option Bool) (gs : Option Nat) (mf ah : Option Bool) : List Instr :=
  [tl.map CfgWrite.thrLow, th.map CfgWrite.thrHigh, re.map CfgWrite.risingEdge, gs.map CfgWrite.groupSize,
    mf.map CfgWrite.msbFirst, ah.map CfgWrite.asHex].filterMap fun w => w.map Instr.cfgw

/-! ## Textual form (R59) -/

/-- The register names of the textual form. -/
inductive RegName where
  | THR_LOW | THR_HIGH | RISING_EDGE | GROUP_SIZE | MSB_FIRST | AS_HEX
deriving DecidableEq, Repr

/-- An operand of a line: a number (of volts for a sample or threshold), or a register name. -/
inductive AsmOperand where
  | number (x : Rat)
  | reg (r : RegName)
deriving DecidableEq, Repr

/-- One line: the mnemonic, then the operands. -/
structure AsmLine where
  mnemonic : Mnemonic
  operands : List AsmOperand
deriving DecidableEq, Repr

/-- A number of volts as a sample in millivolts: `1000 *` that number (R51, R59). -/
def sampleOfVolts (x : Rat) : SampleT := 1000 * x

/-- A bit operand. -/
def bitOfNumber (x : Rat) : Option Bool :=
  if x = 0 then some false else if x = 1 then some true else none

/-- A natural-number operand. -/
def natOfNumber (x : Rat) : Option Nat :=
  if x.den = 1 ∧ 0 ≤ x.num then some x.num.toNat else none

/-- The operation of a `CFGW` line. -/
def assembleCfg (x : Rat) : RegName → Option CfgWrite
  | .THR_LOW => some (.thrLow (sampleOfVolts x))
  | .THR_HIGH => some (.thrHigh (sampleOfVolts x))
  | .RISING_EDGE => (bitOfNumber x).map .risingEdge
  | .GROUP_SIZE => (natOfNumber x).map .groupSize
  | .MSB_FIRST => (bitOfNumber x).map .msbFirst
  | .AS_HEX => (bitOfNumber x).map .asHex

/-- The operation of a line; `none` where the operands are not the mnemonic's. -/
def assemble (l : AsmLine) : Option Instr :=
  match l.mnemonic, l.operands with
  | .NOP, [] => some .nop
  | .START, [] => some .start
  | .SMP2, [.number c, .number d] => some (.smp2 (sampleOfVolts c) (sampleOfVolts d))
  | .SMPC, [.number c] => some (.smpc (sampleOfVolts c))
  | .SMPD, [.number d] => some (.smpd (sampleOfVolts d))
  | .END, [] => some .endRun
  | .CFGW, [.reg r, .number x] => (assembleCfg x r).map .cfgw
  | .RSVD, [] => some .rsvd
  | _, _ => none

/-- A word in hexadecimal, nine digits; lowercase here, the examples of R59 print them uppercase. -/
def wordText (w : OpWord) : List Char := '0' :: 'x' :: hexDigits w.toNat 9

end Sys2Proof.Machine
end

