-- ==== Sys2Proof/Machine/Run.lean ====
section
/-! DEFINITION. Runs and their results (45_operations.md R140, R141), as an observer of the machine sees them. -/

namespace Sys2Proof.Machine

/-- The state after some steps, and the events of those steps in order. -/
abbrev Trace := Host.Outcome (State × List Event) Fault Refusal

/-- `k` steps of the machine, with the events of each. -/
def runSteps : Nat → State → Trace
  | 0, s => .next (s, [])
  | k + 1, s =>
    match step s with
    | .fault r => .fault r
    | .refused r => .refused r
    | .next t =>
      match runSteps k t with
      | .fault r => .fault r
      | .refused r => .refused r
      | .next (u, es) => .next (u, t.events ++ es)

/-- The operations `ops` one after another, with the events of each. -/
def runOps : List Instr → State → Trace
  | [], s => .next (s, [])
  | i :: ops, s =>
    match exec i s with
    | .fault r => .fault r
    | .refused r => .refused r
    | .next t =>
      match runOps ops t with
      | .fault r => .fault r
      | .refused r => .refused r
      | .next (u, es) => .next (u, t.events ++ es)

/-- The host is about to present exactly these operations. -/
def State.presenting (s : State) (ops : List Instr) : State := { s with inputs := ops.map Input.op }

/-- The error of a run, with the quantities of 60_exceptions.md R171. -/
inductive RunError where
  | ambiguous (ch : Chan) (thrLow thrHigh : SampleT)
  | lenMismatch (nClk nDat : Nat)
  | indivisible (nBits groupSize cnt nVals : Nat)
  | badConfig (thrLow thrHigh : SampleT) (groupSize : Nat)
  | protocol
deriving DecidableEq, Repr

/-- The cause of an error. -/
def RunError.cause : RunError → Cause
  | .ambiguous .clk _ _ => .ambigClk
  | .ambiguous .dat _ _ => .ambigDat
  | .lenMismatch _ _ => .lenMismatch
  | .indivisible _ _ _ _ => .indivisible
  | .badConfig _ _ _ => .badConfig
  | .protocol => .protocol

/-- The result of a run (R141). -/
inductive RunResult where
  | err (e : RunError)
  | ok (out : List OutElem)
deriving DecidableEq, Repr

/-- The output of a run whose cause is 0: the strings of its `HEX` events, or the integers of its `VAL` events
(R141). -/
def outputOf (asHex : Bool) (es : List Event) : List OutElem :=
  if asHex then (es.filterMap Event.hex?).map .str else (es.filterMap Event.val?).map .int

/-- The result of a run, from the state after its last step and the events of its steps (R141). -/
def resultOf (t : State) (es : List Event) : RunResult :=
  match t.flags.cause with
  | .none => .ok (outputOf t.cfg.asHex es)
  | .ambigClk => .err (.ambiguous .clk t.cfg.thrLow t.cfg.thrHigh)
  | .ambigDat => .err (.ambiguous .dat t.cfg.thrLow t.cfg.thrHigh)
  | .lenMismatch => .err (.lenMismatch t.clk.n t.dat.n)
  | .indivisible => .err (.indivisible t.nBits t.cfg.groupSize t.cnt t.nVals)
  | .badConfig => .err (.badConfig t.cfg.thrLow t.cfg.thrHigh t.cfg.groupSize)
  | .protocol => .err .protocol

/-- The result of a run has the value of the source's pipeline: the same output, or an error of the same cause (R143). -/
def RunResult.agrees (r : RunResult) (p : Except Cause (List OutElem)) : Prop :=
  match r, p with
  | .ok o, .ok o' => o = o'
  | .err e, .error c => e.cause = c
  | .ok _, .error _ => False
  | .err _, .ok _ => False

/-- What an observer keeps: the events of the run that is open, if one is, and the results of the runs that ended
(R140). -/
structure Watch where
  opened  : Option (List Event)
  results : List RunResult
deriving DecidableEq, Repr

/-- The run with the events `es` so far goes on, or ends if the step left `phase = DONE` (R140). -/
def Watch.extend (w : Watch) (es : List Event) (after : State) : Watch :=
  if after.phase = .done then { opened := none, results := w.results ++ [resultOf after es] }
  else { w with opened := some es }

/-- One step seen by the observer (R140): a `START` taken outside `RUN` begins a run, a step that leaves `DONE` ends the
open run, a `RESET` abandons it, and a step outside a run belongs to none. -/
def Watch.observe (w : Watch) (a : Action) (before after : State) : Watch :=
  match a with
  | .reset => { w with opened := none }
  | .op i =>
    if i = .start ∧ before.phase ≠ .run then w.extend after.events after
    else
      match w.opened with
      | none => w
      | some es => w.extend (es ++ after.events) after

/-- The actions `acts` one after another, watched. -/
def watchActions : List Action → State → Watch → Host.Outcome (State × Watch) Fault Refusal
  | [], s, w => .next (s, w)
  | a :: acts, s, w =>
    match perform a s with
    | .fault r => .fault r
    | .refused r => .refused r
    | .next t => watchActions acts t (w.observe a s t)

end Sys2Proof.Machine
end

