-- ==== Sys2Proof/Safety.lean ====
section
/-! DEFINITION. The terms that claims use: the invariant of every state a run reaches (10_state.md R34), the order of
events (R31), and the change of sample type (00_scope.md R6). -/

namespace Sys2Proof.Machine

/-- R34 items 1 and 2 for the group size `g` of the run: `cnt < g` and `n_bits = n_vals * g + cnt`. -/
def State.groupsFit (s : State) (g : Nat) : Prop := s.cnt < g ∧ s.nBits = s.nVals * g + s.cnt

/-- The clock level of the last beat is the one from which the qualifying edge starts. -/
def State.armed (s : State) : Bool := s.edg.cprevValid && s.edg.cprev == !s.cfg.risingEdge

/-- The invariant of the block: 10_state.md R34, with what its items need to be kept by every step. -/
structure State.Inv (s : State) : Prop where
  /-- `sh < 2^cnt` (R34 item 1) -/
  shBound : s.sh < 2 ^ s.cnt
  /-- R34 items 1 and 2, for the group size of the run, which `DONE` may have changed since -/
  groups : ∃ g, s.groupsFit g
  /-- the same for the register itself while a run is open -/
  groupsRun : s.phase = .run → s.groupsFit s.cfg.groupSize
  /-- the open run has a legal configuration (R17) -/
  legalRun : s.phase = .run → s.cfg.legal = true
  /-- R34 item 3: with no flag set a valid `cprev` is the level of the clock channel -/
  cprevLevel : s.flags.any = false → s.edg.cprevValid = true → s.clk.hs.bit? = some s.edg.cprev
  /-- R34 item 4 for the clock channel -/
  undetClk : s.clk.hs = .undet ↔ (s.clk.n = 0 ∨ s.flags.ambigClk = true)
  /-- R34 item 4 for the data channel -/
  undetDat : s.dat.hs = .undet ↔ (s.dat.n = 0 ∨ s.flags.ambigDat = true)
  /-- R34 item 5: an ambiguous sample is a first sample, so it has been counted -/
  ambigClk : s.flags.ambigClk = true → 0 < s.clk.n
  ambigDat : s.flags.ambigDat = true → 0 < s.dat.n
  /-- with no flag set the channels are aligned, and the edge detector has seen every beat -/
  aligned : s.flags.any = false → s.clk.n = s.dat.n
  cprevSeen : s.edg.cprevValid = true → 0 < s.clk.n ∧ 0 < s.dat.n
  /-- R34 item 6 -/
  bitsBound : s.nBits ≤ min s.clk.n s.dat.n - 1
  /-- `n_bits <= floor(L / 2)` (42_data_latch.md R98), and what keeps it so while the run is open -/
  bitsHalf : 2 * s.nBits ≤ min s.clk.n s.dat.n
  bitsArmed : s.phase = .run → 2 * s.nBits + s.armed.toNat ≤ min s.clk.n s.dat.n
  /-- R34 item 7 -/
  idle : s.phase = .idle →
    s.clk = .reset ∧ s.dat = .reset ∧ s.edg = .reset ∧ s.lbit = false ∧ s.sh = 0 ∧ s.cnt = 0 ∧ s.nBits = 0
      ∧ s.nVals = 0 ∧ (s.flags = .clear ∨ s.flags = Flags.clear.set .proto)
  /-- R34 item 8 -/
  badConfig : s.flags.cfg = true → s.phase = .done ∧ s.clk.n = 0 ∧ s.dat.n = 0
  /-- an unfinished group is found at `END` alone (60_exceptions.md R165) -/
  indivDone : s.flags.indiv = true → s.phase = .done

/-- The place of an event in the order of 10_state.md R31. -/
def Event.rank : Event → Nat
  | .dig .clk _ => 0
  | .dig .dat _ => 1
  | .edge => 2
  | .bit _ => 3
  | .val _ => 4
  | .hex _ => 5
  | .fin _ => 6

/-- An event of the given kind stands in the list. -/
def hasRank (r : Nat) (es : List Event) : Bool := es.any fun e => e.rank == r

/-- The order of 10_state.md R31: each kind at most once, in pipeline order; no `BIT` without `EDGE`, no `VAL` without
`BIT`, no `HEX` without `VAL`. -/
def eventsInOrder (es : List Event) : Prop :=
  es.Pairwise (fun a b => a.rank < b.rank)
    ∧ (hasRank 3 es = true → hasRank 2 es = true)
    ∧ (hasRank 4 es = true → hasRank 3 es = true)
    ∧ (hasRank 5 es = true → hasRank 4 es = true)

/-! ## Change of the sample type -/

/-- The same operation with every sample and threshold it carries replaced by its image under `f`: the change of
`SAMPLE_T` that 00_scope.md R6 speaks of. -/
def mapCfgWrite (f : SampleT → SampleT) : CfgWrite → CfgWrite
  | .thrLow v => .thrLow (f v)
  | .thrHigh v => .thrHigh (f v)
  | .risingEdge v => .risingEdge v
  | .groupSize v => .groupSize v
  | .msbFirst v => .msbFirst v
  | .asHex v => .asHex v
  | .reserved r => .reserved r

/-- See `mapCfgWrite`. -/
def mapInstr (f : SampleT → SampleT) : Instr → Instr
  | .nop => .nop
  | .start => .start
  | .smp2 c d => .smp2 (f c) (f d)
  | .smpc c => .smpc (f c)
  | .smpd d => .smpd (f d)
  | .endRun => .endRun
  | .cfgw w => .cfgw (mapCfgWrite f w)
  | .rsvd => .rsvd

/-- The state with its two thresholds replaced by their images; no other register holds a sample. The actions the host
has yet to present are mapped by the host. -/
def mapState (f : SampleT → SampleT) (s : State) : State :=
  { s with cfg := { s.cfg with thrLow := f s.cfg.thrLow, thrHigh := f s.cfg.thrHigh } }

/-- The image of an outcome. -/
def mapOutcome (f : SampleT → SampleT) : Result → Result
  | .next t => .next (mapState f t)
  | .fault r => .fault r
  | .refused r => .refused r

/-! ## Views of operations -/

/-- The samples of channel `ch` that the operations carry, in order (20_memory.md R41). -/
def sampleOf? (ch : Chan) : Instr → Option SampleT
  | .nop => none
  | .start => none
  | .smp2 c d => some (match ch with | .clk => c | .dat => d)
  | .smpc c => match ch with | .clk => some c | .dat => none
  | .smpd d => match ch with | .clk => none | .dat => some d
  | .endRun => none
  | .cfgw _ => none
  | .rsvd => none

/-- See `sampleOf?`. -/
def channelSamples (ch : Chan) (ops : List Instr) : List SampleT := ops.filterMap (sampleOf? ch)

/-- A sample beat (00_scope.md R9). -/
def isBeat (i : Instr) : Bool := (sampleOf? .clk i).isSome || (sampleOf? .dat i).isSome

/-- A paired beat (00_scope.md R9). -/
def isPaired (i : Instr) : Bool := (sampleOf? .clk i).isSome && (sampleOf? .dat i).isSome

/-- The operation is illegal in the phase, or addresses nothing: the causes of the protocol fault
(60_exceptions.md R167). -/
def isProtocolFault (i : Instr) (p : Phase) : Bool :=
  match i with
  | .nop => false
  | .start => p == .run
  | .smp2 _ _ => p != .run
  | .smpc _ => p != .run
  | .smpd _ => p != .run
  | .endRun => p != .run
  | .cfgw (.reserved _) => true
  | .cfgw _ => p == .run
  | .rsvd => true

/-- The phase after an operation, by the table of 45_operations.md R139. -/
def nextPhase (legal : Bool) (i : Instr) (p : Phase) : Phase :=
  match i, p with
  | .start, .run => .run
  | .start, _ => if legal then .run else .done
  | .endRun, .run => .done
  | _, p => p

/-- The six flags of `f` are set in `g` too. -/
def Flags.le (f g : Flags) : Prop := ∀ e : ErrFlag, f.get e = true → g.get e = true

end Sys2Proof.Machine
end

