-- ==== Sys2Proof/Certificates/Slice0/Obligations.lean ====
section
/-! DEFINITION. The statements for the provers. Each docstring names the rules of spec/ it formalises, or says that it
is the model's own. -/

open Sys2Proof Sys2Proof.Machine

/-! ## Encoding -/

/-- 30_encoding.md R59: the words of the table of examples decode to their operations (samples in millivolts). -/
def Obligations.ListedWordsDecode : Prop :=
  decode 0x000000000#35 = .nop ∧ decode 0x100000000#35 = .start ∧ decode 0x20CE40000#35 = .smp2 3300 0
    ∧ decode 0x200000CE4#35 = .smp2 0 3300 ∧ decode 0x305DC0000#35 = .smpc 1500 ∧ decode 0x4000009C4#35 = .smpd 2500
    ∧ decode 0x500000000#35 = .endRun ∧ decode 0x600000320#35 = .cfgw (.thrLow 800)
    ∧ decode 0x6000107D0#35 = .cfgw (.thrHigh 2000) ∧ decode 0x600020000#35 = .cfgw (.risingEdge false)
    ∧ decode 0x600030008#35 = .cfgw (.groupSize 8) ∧ decode 0x600040001#35 = .cfgw (.msbFirst true)
    ∧ decode 0x600050000#35 = .cfgw (.asHex false) ∧ decode 0x700000000#35 = .rsvd

/-- R62: decode of encode is the identity on every operation the word can hold, ignored bits are encoded as zeros, and
encode of decode is the identity up to ignored bits. -/
def Obligations.DecodeEncodeAgree : Prop :=
  (∀ i : Instr, i.wf = true → decode (encode i) = i ∧ encode i &&& ~~~i.usedBits = 0#35)
    ∧ ∀ w : OpWord, (decode w).wf = true ∧ encode (decode w) = w &&& (decode w).usedBits

/-- R57: two words that agree on the bits the operation examines decode to the same operation. -/
def Obligations.IgnoredBitsAreNotExamined : Prop :=
  ∀ w v : OpWord, v &&& (decode w).usedBits = w &&& (decode w).usedBits → decode v = decode w

/-- R52, R58: every word is covered by exactly one row of the opcode table, the row of the operation it decodes to. -/
def Obligations.EveryWordHasExactlyOneRow : Prop :=
  ∀ w : OpWord, ∃ r ∈ opcodeTable, r.covers w = true ∧ r.mnemonic = (decode w).mnemonic
    ∧ ∀ r' ∈ opcodeTable, r'.covers w = true → r' = r

/-- R51, 93 U22: a sample fits the field exactly when it is a whole number of millivolts in -32768 .. 32767; an
operation that does not fit has no word; the field is read as two's complement. -/
def Obligations.OnlyWholeMillivoltsInRangeFit : Prop :=
  (∀ x : SampleT, SampleT.fits x = true ↔ ∃ n : Int, -32768 ≤ n ∧ n ≤ 32767 ∧ x = (n : Rat))
    ∧ (∀ i : Instr, i.wf = false → encodeWord i = .error .notPresentable)
    ∧ (∀ i : Instr, i.wf = true → encodeWord i = .ok (encode i))
    ∧ ∀ f : OperandField, sampleOfField f = if f.toNat < 32768 then (f.toNat : Rat) else (f.toNat : Rat) - 65536

/-! ## The step and the host interface -/

/-- 10_state.md R29, 45_operations.md R130: with `rst` at 0 a step executes the operation that the word on `op_word`
decodes to, or the abstract operation given in its place; nothing is done around it. -/
def Obligations.StepExecutesThePresentedOperation : Prop :=
  ∀ (s : State) (rest : List Input),
    (∀ w : OpWord, s.inputs = .pins false w :: rest → step s = exec (decode w) { s with inputs := rest })
      ∧ ∀ i : Instr, s.inputs = .op i :: rest → step s = exec i { s with inputs := rest }

/-- The model's own (log 1, log 16): a word placed by `withFetchWord` is the very next operation; with nothing
presented there is no step (93 U26). -/
def Obligations.PlacedWordIsExecutedNext : Prop :=
  (∀ (s : State) (nbits w : Nat) (i : Instr), decodeTableWord nbits w = some i →
    step (s.withFetchWord nbits w) = exec i s)
    ∧ ∀ s : State, s.inputs = [] → step s = .refused .noAction

/-- R32: the value of every register after reset, and what an accepted or refused `START` restores. -/
def Obligations.ResetValuesAreTheTable : Prop :=
  (State.reset.cfg = {
      thrLow := 800, thrHigh := 2000, risingEdge := true, groupSize := 8, msbFirst := true, asHex := true }
    ∧ State.reset.phase = .idle ∧ State.reset.clk = ⟨.undet, 0⟩ ∧ State.reset.dat = ⟨.undet, 0⟩
    ∧ State.reset.edg = ⟨false, false⟩ ∧ State.reset.lbit = false ∧ State.reset.sh = 0 ∧ State.reset.cnt = 0
    ∧ State.reset.nBits = 0 ∧ State.reset.nVals = 0 ∧ ∀ e : ErrFlag, State.reset.flags.get e = false)
    ∧ ∀ s : State, s.phase ≠ .run → ∃ t, exec .start s = .next t ∧ t.cfg = s.cfg ∧ t.clk = ⟨.undet, 0⟩
      ∧ t.dat = ⟨.undet, 0⟩ ∧ t.edg = ⟨false, false⟩ ∧ t.lbit = false ∧ t.sh = 0 ∧ t.cnt = 0 ∧ t.nBits = 0
      ∧ t.nVals = 0 ∧ (s.cfg.legal = true → t.phase = .run ∧ ∀ e : ErrFlag, t.flags.get e = false)
      ∧ (s.cfg.legal = false → t.phase = .done ∧ ∀ e : ErrFlag, t.flags.get e = (e == .cfg))

/-- R190, R191: after a reset, by the pin whatever word stands on `op_word` or by the abstract action, in any state,
`cause = 0`, `STATUS = 0x00`, the counters read 0, no event was emitted, and the block does next what a block in the
reset state does: the operation the host presents (that a reset keeps the actions to come is the model's own, log 1). -/
def Obligations.ResetIsComplete : Prop :=
  ∀ (s : State) (x : Input) (w : OpWord) (rest : List Input), x = .reset ∨ x = .pins true w →
    s.inputs = x :: rest →
    step s = .next { State.reset with inputs := rest }
      ∧ State.reset.flags.cause.code = 0#3 ∧ State.reset.status = 0x00#8 ∧ State.reset.events = []
      ∧ State.reset.clk.n = 0 ∧ State.reset.dat.n = 0 ∧ State.reset.nBits = 0 ∧ State.reset.nVals = 0
      ∧ ∀ (i : Instr) (rest' : List Input), rest = .op i :: rest' →
          step { State.reset with inputs := rest } = exec i { State.reset with inputs := rest' }

/-- The step level and the operation level agree: presenting operations and stepping is executing them one by one. -/
def Obligations.SteppingIsExecutingInOrder : Prop :=
  ∀ (ops : List Instr) (s t : State) (es : List Event),
    runOps ops { s with inputs := [] } = .next (t, es) ↔ runSteps ops.length (s.presenting ops) = .next (t, es)

/-! ## The operations -/

/-- R131: `NOP` does nothing in every phase, and a sequence with its `NOP`s taken out has the same events and the same
final state (but for the strobes of the last step, which end with it). -/
def Obligations.NopChangesNothing : Prop :=
  (∀ s : State, exec .nop s = .next { s with events := [] })
    ∧ ∀ (ops : List Instr) (s t : State) (es : List Event), runOps ops s = .next (t, es) →
        ∃ u, runOps (ops.filter fun i => i ≠ .nop) s = .next (u, es)
          ∧ { u with events := [] } = { t with events := [] }

/-- R132: `START` in `RUN` is a protocol fault; else it clears the run state and opens the run, or refuses it when the
configuration is illegal (`GROUP_MAX` is unbounded). -/
def Obligations.StartOpensOrRefusesTheRun : Prop :=
  ∀ s : State,
    (s.phase = .run → exec .start s = .next { s with flags := { s.flags with proto := true }, events := [] })
      ∧ (s.phase ≠ .run → ¬(s.cfg.thrHigh < s.cfg.thrLow ∨ s.cfg.groupSize < 1) →
          exec .start s = .next { State.reset with cfg := s.cfg, phase := .run, inputs := s.inputs })
      ∧ (s.phase ≠ .run → s.cfg.thrHigh < s.cfg.thrLow ∨ s.cfg.groupSize < 1 →
          exec .start s = .next { State.reset with
            cfg := s.cfg, phase := .done, flags := { Flags.clear with cfg := true }, events := [.fin .badConfig],
            inputs := s.inputs })

/-- R133: the paired beat is the clock comparator, the data comparator and, when no flag is set then, edge detector and
latch on the two levels. The hypotheses of the last clause hold in every state a run reaches (`EveryStepKeepsTheInvariant`). -/
def Obligations.PairedBeatRunsTheUnitsInOrder : Prop :=
  ∀ (s : State) (c d : SampleT),
    (s.phase ≠ .run → exec (.smp2 c d) s = .next { s with flags := { s.flags with proto := true }, events := [] })
      ∧ (s.phase = .run → s.cfg.thrLow ≤ s.cfg.thrHigh →
          ∀ u, u = cmpStep .dat d (cmpStep .clk c { s with events := [] }) →
            (u.flags.any = true → exec (.smp2 c d) s = .next u)
              ∧ (u.flags.any = false → ∀ qc qd, u.clk.hs.bit? = some qc → u.dat.hs.bit? = some qd →
                  1 ≤ s.cfg.groupSize →
                  exec (.smp2 c d) s = .next (latStep (edgeSeen u qc) qd (edgStep qc u))))

/-- R134, R135: an unpaired beat is the comparator of its channel and the length-mismatch flag. -/
def Obligations.UnpairedBeatStepsOneComparator : Prop :=
  ∀ (s : State) (v : SampleT),
    (s.phase ≠ .run →
      exec (.smpc v) s = .next { s with flags := { s.flags with proto := true }, events := [] }
        ∧ exec (.smpd v) s = .next { s with flags := { s.flags with proto := true }, events := [] })
      ∧ (s.phase = .run → s.cfg.thrLow ≤ s.cfg.thrHigh →
          (∀ u, u = cmpStep .clk v { s with events := [] } →
            exec (.smpc v) s = .next { u with flags := { u.flags with len := true } })
            ∧ ∀ u, u = cmpStep .dat v { s with events := [] } →
              exec (.smpd v) s = .next { u with flags := { u.flags with len := true } })

/-- R136: `END` in `RUN` sets `ERR_INDIV` when no flag is set and a group is unfinished, closes the run and reports the
cause; everything else holds. -/
def Obligations.EndClosesTheRun : Prop :=
  ∀ s : State,
    (s.phase ≠ .run → exec .endRun s = .next { s with flags := { s.flags with proto := true }, events := [] })
      ∧ (s.phase = .run → ∀ f, f = { s.flags with
            indiv := s.flags.indiv || (!s.flags.any && decide (s.cnt ≠ 0)) } →
          exec .endRun s = .next { s with phase := .done, flags := f, events := [.fin f.cause] })

/-- R137: `CFGW` outside `RUN` writes the one register it names, whatever the value; in `RUN`, or to register 6 or 7, it
is a protocol fault and writes nothing. -/
def Obligations.CfgwWritesTheNamedRegister : Prop :=
  ∀ s : State,
    (∀ w : CfgWrite, s.phase = .run ∨ (∃ r, w = .reserved r) →
      exec (.cfgw w) s = .next { s with flags := { s.flags with proto := true }, events := [] })
      ∧ (s.phase ≠ .run →
          (∀ v, exec (.cfgw (.thrLow v)) s = .next { s with cfg := { s.cfg with thrLow := v }, events := [] })
          ∧ (∀ v, exec (.cfgw (.thrHigh v)) s = .next { s with cfg := { s.cfg with thrHigh := v }, events := [] })
          ∧ (∀ v, exec (.cfgw (.risingEdge v)) s
              = .next { s with cfg := { s.cfg with risingEdge := v }, events := [] })
          ∧ (∀ v, exec (.cfgw (.groupSize v)) s
              = .next { s with cfg := { s.cfg with groupSize := v }, events := [] })
          ∧ (∀ v, exec (.cfgw (.msbFirst v)) s = .next { s with cfg := { s.cfg with msbFirst := v }, events := [] })
          ∧ ∀ v, exec (.cfgw (.asHex v)) s = .next { s with cfg := { s.cfg with asHex := v }, events := [] })

/-- R138 and R167: the reserved code in every phase, and every operation that is illegal in its phase, sets `ERR_PROTO`
and has no other effect; no other operation sets it. -/
def Obligations.ProtocolFaultOnlySetsItsFlag : Prop :=
  (∀ s : State, exec .rsvd s = .next { s with flags := { s.flags with proto := true }, events := [] })
    ∧ (∀ (i : Instr) (s : State), isProtocolFault i s.phase = true →
        exec i s = .next { s with flags := { s.flags with proto := true }, events := [] })
    ∧ ∀ (i : Instr) (s t : State), isProtocolFault i s.phase = false → exec i s = .next t →
        t.flags.proto = true → s.flags.proto = true

/-- R139: the phase machine, with its protocol faults, its configuration faults and its writes. -/
def Obligations.PhaseMachineIsTheTable : Prop :=
  (∀ (i : Instr) (s t : State), exec i s = .next t → t.phase = nextPhase s.cfg.legal i s.phase)
    ∧ (∀ (i : Instr) (s : State), isProtocolFault i s.phase = true →
        exec i s = .next { s with flags := { s.flags with proto := true }, events := [] })
    ∧ (∀ s t : State, s.phase ≠ .run → exec .start s = .next t → t.flags.cfg = !s.cfg.legal)
    ∧ (∀ (w : CfgWrite) (s t : State), isProtocolFault (.cfgw w) s.phase = false → exec (.cfgw w) s = .next t →
        s.cfg.write w = some t.cfg)
    ∧ ∀ s : State, ∃ t, perform .reset s = .next t ∧ t.phase = .idle

/-- The model's own reading of what has no meaning (logs 5, 6, 7; R77, 93 U10, R7), and of a finite `CNT_W` (log 4,
00_scope.md R5): with inverted thresholds in `RUN` a sample beat is refused; so is a paired beat that latches a bit with
`GROUP_SIZE = 0`; a level that is not defined is a fault; a counter past its width is refused. -/
def Obligations.BeatsWithoutMeaningStop : Prop :=
  (∀ (i : Instr) (s : State), isBeat i = true → s.phase = .run → s.cfg.thrHigh < s.cfg.thrLow →
      exec i s = .refused .invertedThresholds)
    ∧ (∀ (c d : SampleT) (s u : State), s.phase = .run → s.cfg.thrLow ≤ s.cfg.thrHigh →
        u = cmpStep .dat d (cmpStep .clk c { s with events := [] }) → u.flags.any = false →
        (u.clk.hs = .undet ∨ u.dat.hs = .undet → exec (.smp2 c d) s = .fault .undeterminedLevel)
          ∧ ∀ qc qd, u.clk.hs.bit? = some qc → u.dat.hs.bit? = some qd → edgeSeen u qc = true →
            s.cfg.groupSize = 0 → exec (.smp2 c d) s = .refused .zeroGroupSize)
    ∧ ∀ (k : Nat) (t : State), keepCounters none t = .next t
        ∧ (2 ^ k ≤ t.clk.n ∨ 2 ^ k ≤ t.dat.n ∨ 2 ^ k ≤ t.nBits ∨ 2 ^ k ≤ t.nVals →
            keepCounters (some k) t = .refused .counterOverflow)

/-! ## Frames -/

/-- What a sample beat leaves unchanged: configuration, phase, the host's actions, the flags of the other faults, the
other channel, and downstream of the comparators everything for an unpaired beat. -/
def Obligations.SampleBeatFrame : Prop :=
  ∀ (i : Instr) (s t : State), isBeat i = true → exec i s = .next t →
    t.cfg = s.cfg ∧ t.phase = s.phase ∧ t.inputs = s.inputs
      ∧ t.flags.indiv = s.flags.indiv ∧ t.flags.cfg = s.flags.cfg
      ∧ (s.phase = .run → t.flags.proto = s.flags.proto)
      ∧ (isPaired i = true → t.flags.len = s.flags.len)
      ∧ (sampleOf? .clk i = none → t.clk = s.clk ∧ t.flags.ambigClk = s.flags.ambigClk)
      ∧ (sampleOf? .dat i = none → t.dat = s.dat ∧ t.flags.ambigDat = s.flags.ambigDat)
      ∧ (isPaired i = false → t.edg = s.edg ∧ t.lbit = s.lbit ∧ t.sh = s.sh ∧ t.cnt = s.cnt ∧ t.nBits = s.nBits
          ∧ t.nVals = s.nVals)

/-- What an operation without a sample leaves unchanged: `START` the configuration and the host's actions; every other
one the whole data path, every flag but `ERR_INDIV` (by `END`) and `ERR_PROTO`, the phase (but for `END`), and every
configuration register that it does not name. -/
def Obligations.ControlOperationFrame : Prop :=
  ∀ (i : Instr) (s t : State), isBeat i = false → exec i s = .next t →
    t.inputs = s.inputs ∧ ((∀ w, i ≠ .cfgw w) → t.cfg = s.cfg)
      ∧ (i ≠ .start →
          t.clk = s.clk ∧ t.dat = s.dat ∧ t.edg = s.edg ∧ t.lbit = s.lbit ∧ t.sh = s.sh ∧ t.cnt = s.cnt
            ∧ t.nBits = s.nBits ∧ t.nVals = s.nVals ∧ t.flags.ambigClk = s.flags.ambigClk
            ∧ t.flags.ambigDat = s.flags.ambigDat ∧ t.flags.len = s.flags.len ∧ t.flags.cfg = s.flags.cfg
            ∧ (i ≠ .endRun → t.phase = s.phase ∧ t.flags.indiv = s.flags.indiv ∧ t.events = []))
      ∧ ∀ w, i = .cfgw w →
          (w.regNumber ≠ 0 → t.cfg.thrLow = s.cfg.thrLow) ∧ (w.regNumber ≠ 1 → t.cfg.thrHigh = s.cfg.thrHigh)
            ∧ (w.regNumber ≠ 2 → t.cfg.risingEdge = s.cfg.risingEdge)
            ∧ (w.regNumber ≠ 3 → t.cfg.groupSize = s.cfg.groupSize)
            ∧ (w.regNumber ≠ 4 → t.cfg.msbFirst = s.cfg.msbFirst)
            ∧ (w.regNumber ≠ 5 → t.cfg.asHex = s.cfg.asHex)

/-- R170: from the step in which a flag is set on, a beat moves nothing downstream of the comparators and emits nothing
but `DIG`, while the comparators and the sample counters run on, and `END` still closes the run. -/
def Obligations.SetFlagClosesTheGate : Prop :=
  (∀ (i : Instr) (s t : State), isBeat i = true → exec i s = .next t → t.flags.any = true →
    t.edg = s.edg ∧ t.lbit = s.lbit ∧ t.sh = s.sh ∧ t.cnt = s.cnt ∧ t.nBits = s.nBits ∧ t.nVals = s.nVals
      ∧ (∀ e ∈ t.events, ∃ ch b, e = .dig ch b)
      ∧ (s.phase = .run → ∀ (ch : Chan) (v : SampleT), sampleOf? ch i = some v →
          (t.cmp ch).n = (s.cmp ch).n + 1
            ∧ (t.cmp ch).hs = cmpNext s.cfg.thrLow s.cfg.thrHigh (s.cmp ch) v
            ∧ ∀ b, (t.cmp ch).hs.bit? = some b → Event.dig ch b ∈ t.events))
    ∧ ∀ s : State, s.phase = .run → s.flags.any = true →
        exec .endRun s = .next { s with phase := .done, events := [.fin s.flags.cause] }

/-- R26, R173: no operation clears a flag but an accepted `START`. -/
def Obligations.FlagsAreSticky : Prop :=
  ∀ (i : Instr) (s t : State), exec i s = .next t → (i = .start → s.phase = .run) → s.flags.le t.flags

/-- R194: configuration registers are written by `CFGW` alone and never in `RUN`, where `CFGW` is a protocol fault. -/
def Obligations.ConfigurationIsFrozenInRun : Prop :=
  (∀ (i : Instr) (s t : State), exec i s = .next t → t.cfg ≠ s.cfg → s.phase ≠ .run ∧ ∃ w, i = .cfgw w)
    ∧ ∀ (w : CfgWrite) (s : State), s.phase = .run →
        exec (.cfgw w) s = .next { s with flags := { s.flags with proto := true }, events := [] }

/-- R31: the events of one step are each at most once, in pipeline order; no `BIT` without `EDGE`, no `VAL` without
`BIT`, no `HEX` without `VAL`. -/
def Obligations.EventsComeInPipelineOrder : Prop :=
  ∀ (i : Instr) (s t : State), exec i s = .next t → eventsInOrder t.events

/-- R177: each counter is raised by exactly 1 per clock sample, data sample, latched bit and emitted value, and never
otherwise; `START` taken outside `RUN` puts them to 0. -/
def Obligations.CountersCountTheirEvents : Prop :=
  (∀ (i : Instr) (s t : State), exec i s = .next t → (i = .start → s.phase = .run) →
    (∀ ch : Chan, (t.cmp ch).n
        = (s.cmp ch).n + if s.phase = .run ∧ (sampleOf? ch i).isSome = true then 1 else 0)
      ∧ t.nBits = s.nBits + (t.events.filterMap Event.bit?).length
      ∧ t.nVals = s.nVals + (t.events.filterMap Event.val?).length)
    ∧ ∀ s t : State, s.phase ≠ .run → exec .start s = .next t →
        t.clk.n = 0 ∧ t.dat.n = 0 ∧ t.nBits = 0 ∧ t.nVals = 0

/-! ## Faults -/

/-- R162, R163: `AMBIG_ch` is raised by a sample of its channel alone, the first of the run, strictly between the
thresholds, always then, and the channel stays `UNDET` for the rest of the run. -/
def Obligations.AmbiguousSampleIsAFirstSample : Prop :=
  ∀ (ch : Chan) (i : Instr) (s t : State), exec i s = .next t →
    (s.flags.get ch.ambigFlag = false → t.flags.get ch.ambigFlag = true →
      (s.cmp ch).n = 0 ∧ (t.cmp ch) = ⟨.undet, 1⟩
        ∧ ∃ v, sampleOf? ch i = some v ∧ s.cfg.thrLow < v ∧ v < s.cfg.thrHigh)
      ∧ (∀ v, s.phase = .run → (s.cmp ch).n = 0 → sampleOf? ch i = some v → s.cfg.thrLow < v → v < s.cfg.thrHigh →
          t.flags.get ch.ambigFlag = true ∧ (t.cmp ch).hs = .undet ∧ ∀ b, Event.dig ch b ∉ t.events)
      ∧ ((i = .start → s.phase = .run) → (s.cmp ch).n ≠ 0 → (s.cmp ch).hs = .undet →
          (t.cmp ch).hs = .undet ∧ ∀ b, Event.dig ch b ∉ t.events)

/-- R164: `LEN_MISMATCH` is raised by the unpaired beats taken in `RUN`, by each of them, and by nothing else; under
`CAPTURE` it is set if and only if the lengths differ, and the two counters are the lengths. -/
def Obligations.LengthMismatchIsAnUnpairedBeat : Prop :=
  (∀ (i : Instr) (s t : State), exec i s = .next t → (i = .start → s.phase = .run) →
    (t.flags.len = true ↔
      s.flags.len = true ∨ (s.phase = .run ∧ isBeat i = true ∧ isPaired i = false)))
    ∧ ∀ (clock data : List SampleT) (s t : State) (es : List Event), s.phase ≠ .run → s.cfg.legal = true →
        runOps (capture clock data) s = .next (t, es) →
        (t.flags.len = true ↔ clock.length ≠ data.length) ∧ t.clk.n = clock.length ∧ t.dat.n = data.length

/-- R165: `INDIVISIBLE` is raised by `END` in `RUN` with no other flag set and a group unfinished, and by nothing else;
in every state a run reaches, unfinished means that the bit count is no multiple of the group size. -/
def Obligations.IndivisibleIsFoundAtEnd : Prop :=
  (∀ (i : Instr) (s t : State), exec i s = .next t → s.flags.indiv = false →
    (t.flags.indiv = true ↔ i = .endRun ∧ s.phase = .run ∧ s.flags.any = false ∧ s.cnt ≠ 0))
    ∧ ∀ s : State, s.Inv → s.phase = .run → (s.cnt ≠ 0 ↔ s.nBits % s.cfg.groupSize ≠ 0)

/-- R166: `BAD_CONFIG` is raised by a `START` taken outside `RUN` with inverted thresholds or a group size below 1
(`GROUP_MAX` is unbounded), and by nothing else; the run is refused, `FIN(5)` is emitted, and the configuration is kept. -/
def Obligations.BadConfigIsFoundAtStart : Prop :=
  ∀ (i : Instr) (s t : State), exec i s = .next t →
    (s.flags.cfg = false →
      (t.flags.cfg = true ↔
        i = .start ∧ s.phase ≠ .run ∧ (s.cfg.thrHigh < s.cfg.thrLow ∨ s.cfg.groupSize < 1)))
      ∧ (i = .start → s.phase ≠ .run → s.cfg.thrHigh < s.cfg.thrLow ∨ s.cfg.groupSize < 1 →
          t.phase = .done ∧ t.events = [.fin .badConfig] ∧ t.cfg = s.cfg)

/-- R27, R168, and the codes of R161: `fault_any`, the codes and the priority of `cause`, `busy`, `done` and the bits of `STATUS`. -/
def Obligations.StatusSignalsFollowTheFlags : Prop :=
  (∀ f : Flags, (f.any = true ↔ ∃ e : ErrFlag, f.get e = true)
    ∧ f.cause.code = (if f.proto then 6#3 else if f.cfg then 5#3 else if f.ambigClk then 1#3
        else if f.ambigDat then 2#3 else if f.len then 3#3 else if f.indiv then 4#3 else 0#3)
    ∧ f.cause.code ≠ 7#3)
    ∧ ∀ s : State, (s.busy = true ↔ s.phase = .run) ∧ (s.isDone = true ↔ s.phase = .done)
      ∧ s.status.getLsbD 0 = s.busy ∧ s.status.getLsbD 1 = s.isDone
      ∧ ∀ e : ErrFlag, s.status.getLsbD (2 + e.index) = s.flags.get e

/-! ## The units -/

/-- R72, R73: the state of a comparator after a first and after a later sample, and which flag it sets; with what
`CMP_STEP` (R74) counts and emits. Nothing else moves. With `THR_LOW > THR_HIGH`, where R77 gives `CMP_STEP` no meaning,
it says only what the model's total function returns, the model's own choice (log 19). -/
def Obligations.ComparatorFollowsItsTable : Prop :=
  ∀ (ch : Chan) (v : SampleT) (s : State), ∃ h : Hyst,
    cmpStep ch v s = { s.setCmp ch ⟨h, (s.cmp ch).n + 1⟩ with
        flags := if (s.cmp ch).n = 0 ∧ h = .undet then s.flags.set ch.ambigFlag else s.flags,
        events := s.events ++ (h.bit?.map (Event.dig ch)).toList }
      ∧ ((s.cmp ch).n = 0 →
          (s.cfg.thrHigh ≤ v → h = .high) ∧ (v < s.cfg.thrHigh → v ≤ s.cfg.thrLow → h = .low)
            ∧ (s.cfg.thrLow < v → v < s.cfg.thrHigh → h = .undet))
      ∧ ((s.cmp ch).n ≠ 0 →
          ((s.cmp ch).hs = .low → s.cfg.thrHigh ≤ v → h = .high) ∧ ((s.cmp ch).hs = .low → v < s.cfg.thrHigh → h = .low)
            ∧ ((s.cmp ch).hs = .high → v ≤ s.cfg.thrLow → h = .low)
            ∧ ((s.cmp ch).hs = .high → s.cfg.thrLow < v → h = .high) ∧ ((s.cmp ch).hs = .undet → h = .undet))

/-- R87: the qualifying-edge predicate; with what `EDG_STEP` (R88) writes and emits, and no edge while no beat has been
seen (R89). -/
def Obligations.EdgeDetectorFollowsItsRule : Prop :=
  (∀ p q r : Bool, edgeQ p q r = true ↔ (r = true ∧ p = false ∧ q = true) ∨ (r = false ∧ p = true ∧ q = false))
    ∧ (∀ (qc : Bool) (s : State), edgeSeen s qc = (s.edg.cprevValid && edgeQ s.edg.cprev qc s.cfg.risingEdge)
        ∧ edgStep qc s = { s with
            edg := ⟨qc, true⟩, events := s.events ++ if edgeSeen s qc = true then [.edge] else [] })
    ∧ ∀ (c d : SampleT) (s t : State), s.edg.cprevValid = false → exec (.smp2 c d) s = .next t →
        Event.edge ∉ t.events ∧ t.nBits = s.nBits

/-- R95: the bit latched at a qualifying edge is the data level of the same beat, after the data comparator has
stepped; a beat without an edge latches nothing. -/
def Obligations.LatchTakesTheLevelOfItsBeat : Prop :=
  ∀ (c d : SampleT) (s t : State), s.phase = .run → exec (.smp2 c d) s = .next t →
    t.dat.hs = cmpNext s.cfg.thrLow s.cfg.thrHigh s.dat d
      ∧ (Event.edge ∈ t.events → ∃ b, t.dat.hs.bit? = some b ∧ Event.bit b ∈ t.events ∧ t.lbit = b
          ∧ t.nBits = s.nBits + 1)
      ∧ (Event.edge ∉ t.events → (∀ b, Event.bit b ∉ t.events) ∧ t.lbit = s.lbit ∧ t.nBits = s.nBits)

/-- R117: `GRP_STEP`. With `GROUP_SIZE = 0`, where 93 U10 gives `GRP_STEP` no meaning, it says only what the model's
total function returns, the model's own choice (log 19). -/
def Obligations.GroupStepFollowsItsRule : Prop :=
  ∀ (b : Bool) (s : State) (v : Nat), v = shiftIn s.cfg.msbFirst s.sh s.cnt b →
    (s.cnt + 1 = s.cfg.groupSize → s.cfg.asHex = true → grpStep b s = { s with
        sh := 0, cnt := 0, nVals := s.nVals + 1,
        events := s.events ++ [.val v, .hex (hexStr .fixed v s.cfg.groupSize)] })
      ∧ (s.cnt + 1 = s.cfg.groupSize → s.cfg.asHex = false → grpStep b s = { s with
          sh := 0, cnt := 0, nVals := s.nVals + 1, events := s.events ++ [.val v] })
      ∧ (s.cnt + 1 ≠ s.cfg.groupSize → grpStep b s = { s with sh := v, cnt := s.cnt + 1 })

/-- R108: the shifter never loses a bit and the OR never meets a bit already set, so `SHIFT_IN` is the sum of R107. -/
def Obligations.ShiftInNeverOverflows : Prop :=
  ∀ (sh cnt g : Nat) (b : Bool), sh < 2 ^ cnt → cnt < g →
    shiftIn true sh cnt b = 2 * sh + b.toNat ∧ shiftIn false sh cnt b = sh + b.toNat * 2 ^ cnt
      ∧ ∀ m : Bool, shiftIn m sh cnt b < 2 ^ (cnt + 1) ∧ shiftIn m sh cnt b < 2 ^ g

/-- R111: the bits of a group through `SHIFT_IN` give the source's value of the chunk, in both bit orders. -/
def Obligations.ShiftingGivesTheChunkValue : Prop :=
  ∀ (c : List Bool) (m : Bool), shiftAll m 0 0 c = chunkValue c m

/-- R124: `chunk_value` and `EXPAND` are inverse, so `chunk_value` is a bijection onto `0 .. 2^g - 1`, and the hex string
of fixed width keeps it injective. -/
def Obligations.ExpandInvertsChunkValue : Prop :=
  (∀ (c : List Bool) (m : Bool), expand (chunkValue c m) c.length m = c ∧ chunkValue c m < 2 ^ c.length)
    ∧ (∀ (v g : Nat) (m : Bool), v < 2 ^ g → chunkValue (expand v g m) m = v ∧ (expand v g m).length = g)
    ∧ ∀ v v' g : Nat, v < 2 ^ g → v' < 2 ^ g → hexStr .fixed v g = hexStr .fixed v' g → v = v'

/-- R119: the hexadecimal string of fixed width. -/
def Obligations.HexStringHasFixedWidth : Prop :=
  ∀ v g nd : Nat, 1 ≤ g → v < 2 ^ g → g ≤ 4 * nd → 4 * nd < g + 4 →
    ∃ ds : List Char, hexStr .fixed v g = '0' :: 'x' :: ds ∧ ds.length = nd ∧ 1 ≤ nd
      ∧ ∀ i, i < nd → ∃ x, x = (v / 16 ^ (nd - 1 - i)) % 16
          ∧ ds[i]? = some (if x < 10 then Char.ofNat ('0'.toNat + x) else Char.ofNat ('a'.toNat + (x - 10)))

/-- R121: the string of `HEX_PAD = minimal` is the fixed one with its leading zeros removed, except the last digit. -/
def Obligations.MinimalHexStripsLeadingZeros : Prop :=
  ∀ v g : Nat, 1 ≤ g → v < 2 ^ g → ∃ (k : Nat) (ds : List Char),
    hexStr .fixed v g = '0' :: 'x' :: (List.replicate k '0' ++ ds) ∧ hexStr .minimal v g = '0' :: 'x' :: ds
      ∧ (ds = ['0'] ∨ ∃ d rest, ds = d :: rest ∧ d ≠ '0')

/-- R110: the bit order is one for a run; a group that reads the same both ways has one value in both orders, all zeros
give 0 and all ones `2^g - 1`. -/
def Obligations.PalindromesIgnoreTheBitOrder : Prop :=
  (∀ c : List Bool, c.reverse = c → chunkValue c true = chunkValue c false)
    ∧ (∀ (g : Nat) (m : Bool), chunkValue (List.replicate g false) m = 0
        ∧ chunkValue (List.replicate g true) m = 2 ^ g - 1)
    ∧ ∀ (i : Instr) (s t : State), s.phase = .run → exec i s = .next t → t.cfg.msbFirst = s.cfg.msbFirst

/-- R109: in groups of one bit, every latched bit is emitted at once as the value 0 or 1, in both bit orders. -/
def Obligations.GroupsOfOneEmitEveryBit : Prop :=
  (∀ m b : Bool, shiftIn m 0 0 b = b.toNat)
    ∧ ∀ (c d : SampleT) (s t : State), s.Inv → s.phase = .run → s.cfg.groupSize = 1 → exec (.smp2 c d) s = .next t →
        s.cnt = 0 ∧ s.sh = 0 ∧ ∀ b, Event.bit b ∈ t.events → Event.val b.toNat ∈ t.events

/-- 00_scope.md R6: the block behaves the same under any order-preserving change of the samples and both thresholds. -/
def Obligations.OnlyTheOrderOfSamplesMatters : Prop :=
  ∀ f : SampleT → SampleT, StrictMono f → ∀ (i : Instr) (s : State),
    exec (mapInstr f i) (mapState f s) = mapOutcome f (exec i s)

/-! ## Runs -/

/-- R79: between two consecutive `DIG` bits of a channel in a run the level changes only across the opposite threshold,
and always then. -/
def Obligations.DeadBandIsStable : Prop :=
  ∀ (ch : Chan) (beats : List Instr) (s t : State) (es : List Event), s.phase ≠ .run → s.cfg.legal = true →
    (∀ i ∈ beats, isBeat i = true ∨ i = .nop) → runOps (.start :: beats) s = .next (t, es) →
    ∀ (k : Nat) (b b' : Bool) (v : SampleT), (es.filterMap (Event.digBit? ch))[k]? = some b →
      (es.filterMap (Event.digBit? ch))[k + 1]? = some b' → (channelSamples ch beats)[k + 1]? = some v →
      (b = false → b' = true → s.cfg.thrHigh ≤ v) ∧ (b = true → b' = false → v ≤ s.cfg.thrLow)
        ∧ (b = false → s.cfg.thrHigh ≤ v → b' = true) ∧ (b = true → v ≤ s.cfg.thrLow → b' = false)

/-- R81: the `DIG` events of a channel in a run are what `digitize` gives for its samples, by any mix of beats; where
`digitize` fails there are none and the flag is set; the counter is the number of samples. -/
def Obligations.RunDigitizesItsChannels : Prop :=
  ∀ (ch : Chan) (beats : List Instr) (s : State), s.phase ≠ .run → s.cfg.legal = true →
    (∀ i ∈ beats, isBeat i = true ∨ i = .nop) →
    ∃ t es, runOps (.start :: beats) s = .next (t, es)
      ∧ (t.cmp ch).n = (channelSamples ch beats).length
      ∧ (∀ q, digitize s.cfg.thrLow s.cfg.thrHigh (channelSamples ch beats) = .ok q →
          es.filterMap (Event.digBit? ch) = q ∧ t.flags.get ch.ambigFlag = false)
      ∧ ∀ r, digitize s.cfg.thrLow s.cfg.thrHigh (channelSamples ch beats) = .error r →
          es.filterMap (Event.digBit? ch) = [] ∧ t.flags.get ch.ambigFlag = true

/-- R100: in a run of paired beats with no ambiguous first sample, the `BIT` events are what `latch` gives for the two
digital sequences, and `n_bits` is their number at `END`. -/
def Obligations.RunLatchesItsBits : Prop :=
  ∀ (beats : List Instr) (s t : State) (es : List Event), s.phase ≠ .run → s.cfg.legal = true →
    (∀ i ∈ beats, isPaired i = true ∨ i = .nop) → runOps (.start :: (beats ++ [.endRun])) s = .next (t, es) →
    t.flags.ambigClk = false → t.flags.ambigDat = false →
    latch (es.filterMap (Event.digBit? .clk)) (es.filterMap (Event.digBit? .dat)) s.cfg.risingEdge
        = .ok (es.filterMap Event.bit?)
      ∧ t.nBits = (es.filterMap Event.bit?).length

/-- R92: in a run that ends with `cause = 0` the number of `EDGE` events is the number of qualifying edges of the clock
levels, and equals `n_bits`. -/
def Obligations.EdgesAreTheQualifyingEdges : Prop :=
  ∀ (beats : List Instr) (s t : State) (es : List Event) (q : List Bool), s.phase ≠ .run → s.cfg.legal = true →
    (∀ i ∈ beats, isBeat i = true ∨ i = .nop) → runOps (.start :: (beats ++ [.endRun])) s = .next (t, es) →
    t.flags.cause = .none → q = es.filterMap (Event.digBit? .clk) →
    (es.filterMap Event.edge?).length
        = ((List.range (q.length - 1)).filter fun i => edgeQ (q.getD i false) (q.getD (i + 1) false) s.cfg.risingEdge).length
      ∧ (es.filterMap Event.edge?).length = t.nBits

/-- R126: in a run with no flag set before `END`, the values and the result are what `decode` gives for the `BIT` events;
where `decode` fails `END` sets `ERR_INDIV`, and the values emitted are those of the complete groups. -/
def Obligations.RunDecodesItsBits : Prop :=
  ∀ (beats : List Instr) (s t : State) (es : List Event) (bits : List Bool), s.phase ≠ .run → s.cfg.legal = true →
    (∀ i ∈ beats, isBeat i = true ∨ i = .nop) → runOps (.start :: beats) s = .next (t, es) → t.flags.any = false →
    bits = es.filterMap Event.bit? →
    ∃ u, exec .endRun t = .next u
      ∧ es.filterMap Event.val? = groupValues bits s.cfg.groupSize s.cfg.msbFirst
      ∧ (∀ o, decodeBits bits s.cfg.groupSize s.cfg.msbFirst s.cfg.asHex = .ok o →
          outputOf s.cfg.asHex es = o ∧ u.nVals = bits.length / s.cfg.groupSize ∧ u.flags.indiv = false)
      ∧ ∀ r, decodeBits bits s.cfg.groupSize s.cfg.msbFirst s.cfg.asHex = .error r → u.flags.indiv = true

/-- R143: presented with `CAPTURE clock, data`, with any `NOP`s inserted, the block has the result of the source's
pipeline, and its sample counters are the two lengths. -/
def Obligations.CaptureEqualsThePipeline : Prop :=
  ∀ (clock data : List SampleT) (ops : List Instr) (s : State), s.phase ≠ .run → s.cfg.legal = true →
    (ops.filter fun i => i ≠ .nop) = capture clock data →
    ∃ t es, runSteps ops.length (s.presenting ops) = .next (t, es)
      ∧ (resultOf t es).agrees (pipeline s.cfg clock data)
      ∧ t.clk.n = clock.length ∧ t.dat.n = data.length

/-- R140, R141: an observer of the actions sees exactly one result for a capture, that of its events and its last state;
a refused `START` is a run of its own, whose result is the configuration error; a `RESET` abandons the open run. -/
def Obligations.ObserverSeesOneResultPerRun : Prop :=
  (∀ (clock data : List SampleT) (s t : State) (es : List Event) (w : Watch), s.phase ≠ .run → s.cfg.legal = true →
    runOps (capture clock data) s = .next (t, es) →
    watchActions ((capture clock data).map .op) s w = .next (t, ⟨none, w.results ++ [resultOf t es]⟩))
    ∧ (∀ (s : State) (w : Watch), s.phase ≠ .run → s.cfg.legal = false →
        ∃ t, watchActions [.op .start] s w
          = .next (t, ⟨none, w.results ++ [.err (.badConfig s.cfg.thrLow s.cfg.thrHigh s.cfg.groupSize)]⟩))
    ∧ ∀ (s : State) (w : Watch), watchActions [.reset] s w = .next (s.resetAction, ⟨none, w.results⟩)

/-- R192: a run is the same, events and final state, after whatever went before it, given the same configuration. -/
def Obligations.RunsDoNotInfluenceEachOther : Prop :=
  ∀ (ops : List Instr) (s s' t : State) (es : List Event), s.phase ≠ .run → s'.phase ≠ .run → s'.cfg = s.cfg →
    runOps (.start :: ops) s = .next (t, es) →
    runOps (.start :: ops) s' = .next ({ t with inputs := s'.inputs }, es)

/-- 30_encoding.md R61: `CONFIG` taken outside `RUN` leaves the given values in the six registers and keeps those whose
operand is omitted; no event, no flag, nothing else. -/
def Obligations.ConfigSetsTheGivenRegisters : Prop :=
  ∀ (tl th : Option SampleT) (re : Option Bool) (gs : Option Nat) (mf ah : Option Bool) (s : State),
    s.phase ≠ .run → ∃ t, runOps (configure tl th re gs mf ah) s = .next (t, [])
      ∧ { t with events := [] } = { s with
          events := [],
          cfg := { thrLow := tl.getD s.cfg.thrLow, thrHigh := th.getD s.cfg.thrHigh,
                   risingEdge := re.getD s.cfg.risingEdge, groupSize := gs.getD s.cfg.groupSize,
                   msbFirst := mf.getD s.cfg.msbFirst, asHex := ah.getD s.cfg.asHex } }

/-- 20_memory.md R49: one of several blocks steps as it would alone, and the others are unchanged (that one step of the
row moves one block is the model's own choice, log 20). -/
def Obligations.SeveralBlocksShareNoState : Prop :=
  ∀ (k : Nat) (xs ys : List State), stepAt k xs = .next ys →
    ys.length = xs.length ∧ (∀ j, j ≠ k → ys[j]? = xs[j]?)
      ∧ ∃ s t, xs[k]? = some s ∧ ys[k]? = some t ∧ step s = .next t

/-! ## Invariants -/

/-- 10_state.md R34 holds at reset. -/
def Obligations.ResetMeetsTheInvariant : Prop := State.reset.Inv

/-- 10_state.md R34: every step keeps the invariant, reset steps among them. -/
def Obligations.EveryStepKeepsTheInvariant : Prop :=
  ∀ s t : State, s.Inv → step s = .next t → t.Inv

/-- R130: from every state that meets the invariant, every action the host presents has an outcome: nothing blocks,
nothing stops. -/
def Obligations.EveryActionHasAnOutcome : Prop :=
  ∀ s : State, s.Inv → s.inputs ≠ [] → ∃ t, step s = .next t
end

