-- ==== Sys2Proof/Laws/State.lean ====
section
/-! SUPPORT. The fields of a state after each of the shared updates, one lemma per field and update. -/

namespace Sys2Proof.Machine

/-! ## `quiet` -/

@[simp] theorem State.quiet_cfg (s : State) : (s.quiet).cfg = s.cfg := rfl
@[simp] theorem State.quiet_phase (s : State) : (s.quiet).phase = s.phase := rfl
@[simp] theorem State.quiet_clk (s : State) : (s.quiet).clk = s.clk := rfl
@[simp] theorem State.quiet_dat (s : State) : (s.quiet).dat = s.dat := rfl
@[simp] theorem State.quiet_edg (s : State) : (s.quiet).edg = s.edg := rfl
@[simp] theorem State.quiet_lbit (s : State) : (s.quiet).lbit = s.lbit := rfl
@[simp] theorem State.quiet_sh (s : State) : (s.quiet).sh = s.sh := rfl
@[simp] theorem State.quiet_cnt (s : State) : (s.quiet).cnt = s.cnt := rfl
@[simp] theorem State.quiet_nBits (s : State) : (s.quiet).nBits = s.nBits := rfl
@[simp] theorem State.quiet_nVals (s : State) : (s.quiet).nVals = s.nVals := rfl
@[simp] theorem State.quiet_flags (s : State) : (s.quiet).flags = s.flags := rfl
@[simp] theorem State.quiet_events (s : State) : (s.quiet).events = [] := rfl
@[simp] theorem State.quiet_inputs (s : State) : (s.quiet).inputs = s.inputs := rfl

/-! ## `emit` -/

@[simp] theorem State.emit_cfg (s : State) (e : Event) : (s.emit e).cfg = s.cfg := rfl
@[simp] theorem State.emit_phase (s : State) (e : Event) : (s.emit e).phase = s.phase := rfl
@[simp] theorem State.emit_clk (s : State) (e : Event) : (s.emit e).clk = s.clk := rfl
@[simp] theorem State.emit_dat (s : State) (e : Event) : (s.emit e).dat = s.dat := rfl
@[simp] theorem State.emit_edg (s : State) (e : Event) : (s.emit e).edg = s.edg := rfl
@[simp] theorem State.emit_lbit (s : State) (e : Event) : (s.emit e).lbit = s.lbit := rfl
@[simp] theorem State.emit_sh (s : State) (e : Event) : (s.emit e).sh = s.sh := rfl
@[simp] theorem State.emit_cnt (s : State) (e : Event) : (s.emit e).cnt = s.cnt := rfl
@[simp] theorem State.emit_nBits (s : State) (e : Event) : (s.emit e).nBits = s.nBits := rfl
@[simp] theorem State.emit_nVals (s : State) (e : Event) : (s.emit e).nVals = s.nVals := rfl
@[simp] theorem State.emit_flags (s : State) (e : Event) : (s.emit e).flags = s.flags := rfl
@[simp] theorem State.emit_events (s : State) (e : Event) : (s.emit e).events = s.events ++ [e] := rfl
@[simp] theorem State.emit_inputs (s : State) (e : Event) : (s.emit e).inputs = s.inputs := rfl

/-! ## `raise` -/

@[simp] theorem State.raise_cfg (s : State) (e : ErrFlag) : (s.raise e).cfg = s.cfg := rfl
@[simp] theorem State.raise_phase (s : State) (e : ErrFlag) : (s.raise e).phase = s.phase := rfl
@[simp] theorem State.raise_clk (s : State) (e : ErrFlag) : (s.raise e).clk = s.clk := rfl
@[simp] theorem State.raise_dat (s : State) (e : ErrFlag) : (s.raise e).dat = s.dat := rfl
@[simp] theorem State.raise_edg (s : State) (e : ErrFlag) : (s.raise e).edg = s.edg := rfl
@[simp] theorem State.raise_lbit (s : State) (e : ErrFlag) : (s.raise e).lbit = s.lbit := rfl
@[simp] theorem State.raise_sh (s : State) (e : ErrFlag) : (s.raise e).sh = s.sh := rfl
@[simp] theorem State.raise_cnt (s : State) (e : ErrFlag) : (s.raise e).cnt = s.cnt := rfl
@[simp] theorem State.raise_nBits (s : State) (e : ErrFlag) : (s.raise e).nBits = s.nBits := rfl
@[simp] theorem State.raise_nVals (s : State) (e : ErrFlag) : (s.raise e).nVals = s.nVals := rfl
@[simp] theorem State.raise_flags (s : State) (e : ErrFlag) : (s.raise e).flags = s.flags.set e := rfl
@[simp] theorem State.raise_events (s : State) (e : ErrFlag) : (s.raise e).events = s.events := rfl
@[simp] theorem State.raise_inputs (s : State) (e : ErrFlag) : (s.raise e).inputs = s.inputs := rfl

/-! ## `clearRun` -/

@[simp] theorem State.clearRun_cfg (s : State) : (s.clearRun).cfg = s.cfg := rfl
@[simp] theorem State.clearRun_phase (s : State) : (s.clearRun).phase = s.phase := rfl
@[simp] theorem State.clearRun_clk (s : State) : (s.clearRun).clk = .reset := rfl
@[simp] theorem State.clearRun_dat (s : State) : (s.clearRun).dat = .reset := rfl
@[simp] theorem State.clearRun_edg (s : State) : (s.clearRun).edg = .reset := rfl
@[simp] theorem State.clearRun_lbit (s : State) : (s.clearRun).lbit = false := rfl
@[simp] theorem State.clearRun_sh (s : State) : (s.clearRun).sh = 0 := rfl
@[simp] theorem State.clearRun_cnt (s : State) : (s.clearRun).cnt = 0 := rfl
@[simp] theorem State.clearRun_nBits (s : State) : (s.clearRun).nBits = 0 := rfl
@[simp] theorem State.clearRun_nVals (s : State) : (s.clearRun).nVals = 0 := rfl
@[simp] theorem State.clearRun_flags (s : State) : (s.clearRun).flags = .clear := rfl
@[simp] theorem State.clearRun_events (s : State) : (s.clearRun).events = s.events := rfl
@[simp] theorem State.clearRun_inputs (s : State) : (s.clearRun).inputs = s.inputs := rfl

/-! ## `resetAction` -/

@[simp] theorem State.resetAction_cfg (s : State) : (s.resetAction).cfg = State.reset.cfg := rfl
@[simp] theorem State.resetAction_phase (s : State) : (s.resetAction).phase = State.reset.phase := rfl
@[simp] theorem State.resetAction_clk (s : State) : (s.resetAction).clk = State.reset.clk := rfl
@[simp] theorem State.resetAction_dat (s : State) : (s.resetAction).dat = State.reset.dat := rfl
@[simp] theorem State.resetAction_edg (s : State) : (s.resetAction).edg = State.reset.edg := rfl
@[simp] theorem State.resetAction_lbit (s : State) : (s.resetAction).lbit = State.reset.lbit := rfl
@[simp] theorem State.resetAction_sh (s : State) : (s.resetAction).sh = State.reset.sh := rfl
@[simp] theorem State.resetAction_cnt (s : State) : (s.resetAction).cnt = State.reset.cnt := rfl
@[simp] theorem State.resetAction_nBits (s : State) : (s.resetAction).nBits = State.reset.nBits := rfl
@[simp] theorem State.resetAction_nVals (s : State) : (s.resetAction).nVals = State.reset.nVals := rfl
@[simp] theorem State.resetAction_flags (s : State) : (s.resetAction).flags = State.reset.flags := rfl
@[simp] theorem State.resetAction_events (s : State) : (s.resetAction).events = State.reset.events := rfl
@[simp] theorem State.resetAction_inputs (s : State) : (s.resetAction).inputs = s.inputs := rfl

/-! ## `setCmp` and `cmp` -/

@[simp] theorem State.setCmp_cfg (s : State) (ch : Chan) (r : CmpRegs) : (s.setCmp ch r).cfg = s.cfg := by
  cases ch <;> rfl
@[simp] theorem State.setCmp_phase (s : State) (ch : Chan) (r : CmpRegs) : (s.setCmp ch r).phase = s.phase := by
  cases ch <;> rfl
@[simp] theorem State.setCmp_edg (s : State) (ch : Chan) (r : CmpRegs) : (s.setCmp ch r).edg = s.edg := by
  cases ch <;> rfl
@[simp] theorem State.setCmp_lbit (s : State) (ch : Chan) (r : CmpRegs) : (s.setCmp ch r).lbit = s.lbit := by
  cases ch <;> rfl
@[simp] theorem State.setCmp_sh (s : State) (ch : Chan) (r : CmpRegs) : (s.setCmp ch r).sh = s.sh := by
  cases ch <;> rfl
@[simp] theorem State.setCmp_cnt (s : State) (ch : Chan) (r : CmpRegs) : (s.setCmp ch r).cnt = s.cnt := by
  cases ch <;> rfl
@[simp] theorem State.setCmp_nBits (s : State) (ch : Chan) (r : CmpRegs) : (s.setCmp ch r).nBits = s.nBits := by
  cases ch <;> rfl
@[simp] theorem State.setCmp_nVals (s : State) (ch : Chan) (r : CmpRegs) : (s.setCmp ch r).nVals = s.nVals := by
  cases ch <;> rfl
@[simp] theorem State.setCmp_flags (s : State) (ch : Chan) (r : CmpRegs) : (s.setCmp ch r).flags = s.flags := by
  cases ch <;> rfl
@[simp] theorem State.setCmp_events (s : State) (ch : Chan) (r : CmpRegs) : (s.setCmp ch r).events = s.events := by
  cases ch <;> rfl
@[simp] theorem State.setCmp_inputs (s : State) (ch : Chan) (r : CmpRegs) : (s.setCmp ch r).inputs = s.inputs := by
  cases ch <;> rfl

@[simp] theorem State.cmp_setCmp (s : State) (ch : Chan) (r : CmpRegs) : (s.setCmp ch r).cmp ch = r := by
  cases ch <;> rfl

theorem State.cmp_setCmp_of_ne (s : State) (ch ch' : Chan) (r : CmpRegs) (h : ch' ≠ ch) :
    (s.setCmp ch r).cmp ch' = s.cmp ch' := by
  cases ch <;> cases ch' <;> first | rfl | exact absurd rfl h

@[simp] theorem State.cmp_clk (s : State) : s.cmp .clk = s.clk := rfl
@[simp] theorem State.cmp_dat (s : State) : s.cmp .dat = s.dat := rfl
@[simp] theorem State.setCmp_clk_clk (s : State) (r : CmpRegs) : (s.setCmp .clk r).clk = r := rfl
@[simp] theorem State.setCmp_clk_dat (s : State) (r : CmpRegs) : (s.setCmp .clk r).dat = s.dat := rfl
@[simp] theorem State.setCmp_dat_clk (s : State) (r : CmpRegs) : (s.setCmp .dat r).clk = s.clk := rfl
@[simp] theorem State.setCmp_dat_dat (s : State) (r : CmpRegs) : (s.setCmp .dat r).dat = r := rfl
@[simp] theorem State.cmp_quiet (s : State) (ch : Chan) : s.quiet.cmp ch = s.cmp ch := by cases ch <;> rfl
@[simp] theorem State.cmp_raise (s : State) (e : ErrFlag) (ch : Chan) : (s.raise e).cmp ch = s.cmp ch := by
  cases ch <;> rfl
@[simp] theorem State.cmp_emit (s : State) (e : Event) (ch : Chan) : (s.emit e).cmp ch = s.cmp ch := by
  cases ch <;> rfl

/-! ## Flags -/

/-- A flag after one was set. -/
@[simp] theorem Flags.get_set (f : Flags) (e e' : ErrFlag) : (f.set e).get e' = (f.get e' || e == e') := by
  cases e <;> cases e' <;> simp [Flags.set, Flags.get]

/-- Some flag is set after one was set. -/
@[simp] theorem Flags.any_set (f : Flags) (e : ErrFlag) : (f.set e).any = true := by
  cases e <;> simp [Flags.set, Flags.any]

/-- Two sets of flags with the same flags are one. -/
theorem Flags.eq_of_get {f g : Flags} (h : ∀ e, f.get e = g.get e) : f = g := by
  have h0 := h .ambigClk
  have h1 := h .ambigDat
  have h2 := h .len
  have h3 := h .indiv
  have h4 := h .cfg
  have h5 := h .proto
  simp only [Flags.get] at h0 h1 h2 h3 h4 h5
  cases f
  cases g
  simp_all

end Sys2Proof.Machine
end

