-- ==== Sys2Proof/Laws/Ops.lean ====
section
/-! SUPPORT. One lemma per shared operation that says once what it can do; proofs cite these instead of unfolding. -/

namespace Sys2Proof.Machine

/-! ## Legality and counters -/

/-- `GROUP_MAX` is unbounded here, so legality is the two conditions of 10_state.md R17. -/
theorem CfgRegs.legal_iff (c : CfgRegs) : c.legal = true ↔ c.thrLow ≤ c.thrHigh ∧ 1 ≤ c.groupSize := by
  simp [CfgRegs.legal, withinLimit, Config.groupMax]

/-- `CNT_W` is unbounded here, so no state is refused for its counters. -/
@[simp] theorem keepCounters_cntW (t : State) : keepCounters Config.cntW t = .next t := rfl

/-! ## Sample beats -/

theorem sampleBeat_of_run {s : State} (body : State → Result) (hp : s.phase = .run)
    (hc : s.cfg.thrLow ≤ s.cfg.thrHigh) : sampleBeat s body = body s.quiet := by
  simp [sampleBeat, hp, hc]

theorem sampleBeat_of_not_run {s : State} (body : State → Result) (hp : s.phase ≠ .run) :
    sampleBeat s body = .next (s.quiet.raise .proto) := by
  simp [sampleBeat, hp]

theorem sampleBeat_of_inverted {s : State} (body : State → Result) (hp : s.phase = .run)
    (hc : ¬ s.cfg.thrLow ≤ s.cfg.thrHigh) : sampleBeat s body = .refused .invertedThresholds := by
  simp [sampleBeat, hp, hc]

/-- All a sample beat can do when it answers a next state. -/
theorem sampleBeat_next {s t : State} {body : State → Result} (h : sampleBeat s body = .next t) :
    (s.phase ≠ .run ∧ t = s.quiet.raise .proto)
      ∨ (s.phase = .run ∧ s.cfg.thrLow ≤ s.cfg.thrHigh ∧ body s.quiet = .next t) := by
  by_cases hp : s.phase = .run
  · by_cases hc : s.cfg.thrLow ≤ s.cfg.thrHigh
    · rw [sampleBeat_of_run body hp hc] at h
      exact .inr ⟨hp, hc, h⟩
    · rw [sampleBeat_of_inverted body hp hc] at h
      cases h
  · rw [sampleBeat_of_not_run body hp] at h
    cases h
    exact .inl ⟨hp, rfl⟩

/-- All a paired beat can do after its comparators when it answers a next state. -/
theorem gatedBeat_next {u t : State} (h : gatedBeat u = .next t) :
    (u.flags.any = true ∧ t = u)
      ∨ (u.flags.any = false ∧ ∃ qc qd, u.clk.hs.bit? = some qc ∧ u.dat.hs.bit? = some qd
          ∧ ¬(edgeSeen u qc = true ∧ u.cfg.groupSize = 0) ∧ t = latStep (edgeSeen u qc) qd (edgStep qc u)) := by
  unfold gatedBeat at h
  cases ha : u.flags.any with
  | true =>
    simp only [ha, if_true, keepCounters_cntW] at h
    cases h
    exact .inl ⟨rfl, rfl⟩
  | false =>
    simp only [ha, Bool.false_eq_true, if_false] at h
    refine .inr ⟨rfl, ?_⟩
    cases hc : u.clk.hs.bit? with
    | none => simp [hc] at h
    | some qc =>
      cases hd : u.dat.hs.bit? with
      | none => simp [hc, hd] at h
      | some qd =>
        simp only [hc, hd, latchBeat] at h
        refine ⟨qc, qd, rfl, rfl, ?_⟩
        by_cases hz : edgeSeen u qc = true ∧ u.cfg.groupSize = 0
        · simp [hz.1, hz.2] at h
        · have hz' : (edgeSeen u qc && u.cfg.groupSize == 0) = false := by
            simpa [Bool.and_eq_true] using hz
          simp only [hz', Bool.false_eq_true, if_false, keepCounters_cntW] at h
          cases h
          exact ⟨hz, rfl⟩

/-! ## The comparator unit -/

section
variable (ch : Chan) (v : SampleT) (s : State)

/-- The event of a comparator: the level of its channel, if it has one. -/
theorem State.emitDig_eq : s.emitDig ch =
    { s with events := s.events ++ ((s.cmp ch).hs.bit?.map (Event.dig ch)).toList } := by
  unfold State.emitDig
  split <;> rename_i h <;> simp [h, State.emit]

/-- `CMP_STEP` as one update (40_hysteresis_comparator.md R74): the comparator of the channel, its flag, its event. -/
theorem cmpStep_eq :
    cmpStep ch v s =
      { s.setCmp ch ⟨cmpNext s.cfg.thrLow s.cfg.thrHigh (s.cmp ch) v, (s.cmp ch).n + 1⟩ with
        flags := if isAmbiguous s.cfg.thrLow s.cfg.thrHigh (s.cmp ch) v = true then s.flags.set ch.ambigFlag
          else s.flags,
        events := s.events
          ++ ((cmpNext s.cfg.thrLow s.cfg.thrHigh (s.cmp ch) v).bit?.map (Event.dig ch)).toList } := by
  unfold cmpStep
  rw [State.emitDig_eq]
  by_cases h : isAmbiguous s.cfg.thrLow s.cfg.thrHigh (s.cmp ch) v = true <;> cases ch <;>
    simp_all [State.setCmp, State.raise, State.cmp]

@[simp] theorem cmpStep_cfg : (cmpStep ch v s).cfg = s.cfg := by rw [cmpStep_eq]; simp
@[simp] theorem cmpStep_phase : (cmpStep ch v s).phase = s.phase := by rw [cmpStep_eq]; simp
@[simp] theorem cmpStep_edg : (cmpStep ch v s).edg = s.edg := by rw [cmpStep_eq]; simp
@[simp] theorem cmpStep_lbit : (cmpStep ch v s).lbit = s.lbit := by rw [cmpStep_eq]; simp
@[simp] theorem cmpStep_sh : (cmpStep ch v s).sh = s.sh := by rw [cmpStep_eq]; simp
@[simp] theorem cmpStep_cnt : (cmpStep ch v s).cnt = s.cnt := by rw [cmpStep_eq]; simp
@[simp] theorem cmpStep_nBits : (cmpStep ch v s).nBits = s.nBits := by rw [cmpStep_eq]; simp
@[simp] theorem cmpStep_nVals : (cmpStep ch v s).nVals = s.nVals := by rw [cmpStep_eq]; simp
@[simp] theorem cmpStep_inputs : (cmpStep ch v s).inputs = s.inputs := by rw [cmpStep_eq]; simp

theorem cmpStep_flags : (cmpStep ch v s).flags =
    if isAmbiguous s.cfg.thrLow s.cfg.thrHigh (s.cmp ch) v = true then s.flags.set ch.ambigFlag else s.flags := by
  rw [cmpStep_eq]

theorem cmpStep_events : (cmpStep ch v s).events = s.events
    ++ ((cmpNext s.cfg.thrLow s.cfg.thrHigh (s.cmp ch) v).bit?.map (Event.dig ch)).toList := by
  rw [cmpStep_eq]

end

@[simp] theorem cmpStep_clk_clk (v : SampleT) (s : State) : (cmpStep .clk v s).clk
    = ⟨cmpNext s.cfg.thrLow s.cfg.thrHigh s.clk v, s.clk.n + 1⟩ := by
  rw [cmpStep_eq]; rfl

@[simp] theorem cmpStep_clk_dat (v : SampleT) (s : State) : (cmpStep .clk v s).dat = s.dat := by
  rw [cmpStep_eq]; rfl

@[simp] theorem cmpStep_dat_dat (v : SampleT) (s : State) : (cmpStep .dat v s).dat
    = ⟨cmpNext s.cfg.thrLow s.cfg.thrHigh s.dat v, s.dat.n + 1⟩ := by
  rw [cmpStep_eq]; rfl

@[simp] theorem cmpStep_dat_clk (v : SampleT) (s : State) : (cmpStep .dat v s).clk = s.clk := by
  rw [cmpStep_eq]; rfl

/-! ## Edge detector, latch and group decoder -/

/-- `EDG_STEP` as one update (41_clock_edge_detector.md R88). -/
theorem edgStep_eq (qc : Bool) (s : State) :
    edgStep qc s = { s with
      edg := ⟨qc, true⟩, events := s.events ++ bif edgeSeen s qc then [.edge] else [] } := by
  unfold edgStep
  cases edgeSeen s qc <;> simp [State.emit]

/-- The events of `GRP_STEP(b)`: those of a full group, or none. -/
def groupEvents (b : Bool) (s : State) : List Event :=
  if s.cnt + 1 = s.cfg.groupSize then
    .val (shiftIn s.cfg.msbFirst s.sh s.cnt b) :: (bif s.cfg.asHex then
      [.hex (hexStr Config.hexPad (shiftIn s.cfg.msbFirst s.sh s.cnt b) s.cfg.groupSize)] else [])
  else []

/-- `GRP_STEP` as one update (44_group_decoder.md R117). -/
theorem grpStep_eq (b : Bool) (s : State) :
    grpStep b s = { s with
      sh := if s.cnt + 1 = s.cfg.groupSize then 0 else shiftIn s.cfg.msbFirst s.sh s.cnt b,
      cnt := if s.cnt + 1 = s.cfg.groupSize then 0 else s.cnt + 1,
      nVals := if s.cnt + 1 = s.cfg.groupSize then s.nVals + 1 else s.nVals,
      events := s.events ++ groupEvents b s } := by
  unfold grpStep groupDone groupEvents
  by_cases h : s.cnt + 1 = s.cfg.groupSize
  · cases hx : s.cfg.asHex <;> simp [h, State.emit]
  · simp [h]

/-- `LAT_STEP` without an edge (42_data_latch.md R96). -/
@[simp] theorem latStep_false (qd : Bool) (s : State) : latStep false qd s = s := rfl

/-- `LAT_STEP` at an edge (42_data_latch.md R96). -/
theorem latStep_true (qd : Bool) (s : State) :
    latStep true qd s = grpStep qd ({ s with lbit := qd, nBits := s.nBits + 1 }.emit (.bit qd)) := rfl

/-- `SHIFT_IN` as arithmetic while the partial value has at most `cnt` bits (43_bit_shifter.md R107). -/
theorem shiftIn_eq {sh cnt : Nat} (m b : Bool) (h : sh < 2 ^ cnt) :
    shiftIn m sh cnt b = if m then 2 * sh + b.toNat else sh + b.toNat * 2 ^ cnt := by
  cases m with
  | true =>
    have hb : b.toNat < 2 ^ 1 := by cases b <;> decide
    have := Nat.shiftLeft_add_eq_or_of_lt hb sh
    simp only [shiftIn, if_true]
    rw [← this, Nat.shiftLeft_eq]
    omega
  | false =>
    have := Nat.two_pow_add_eq_or_of_lt h b.toNat
    simp only [shiftIn, Bool.false_eq_true, if_false, Nat.shiftLeft_eq]
    rw [Nat.or_comm, Nat.mul_comm, ← this]
    omega

end Sys2Proof.Machine
end

