-- ==== Sys2Proof/Laws/Exec.lean ====
section
/-! SUPPORT. Inversion of `exec`: for each operation with more than one outcome, everything it can do when it answers a
next state. -/

namespace Sys2Proof.Machine

/-- The state after both comparators of a paired beat. -/
def afterComparators (c d : SampleT) (s : State) : State := cmpStep .dat d (cmpStep .clk c s.quiet)

theorem execStart_next {s t : State} (h : execStart s = .next t) :
    (s.phase = .run ∧ t = s.quiet.raise .proto)
      ∨ (s.phase ≠ .run ∧ s.cfg.legal = true ∧ t = { s.quiet.clearRun with phase := .run })
      ∨ (s.phase ≠ .run ∧ s.cfg.legal = false
          ∧ t = { s.quiet.clearRun.raise .cfg with phase := .done, events := [.fin .badConfig] }) := by
  unfold execStart at h
  by_cases hp : s.phase = .run
  · rw [if_pos hp] at h
    cases h
    exact .inl ⟨hp, rfl⟩
  · rw [if_neg hp] at h
    cases hl : s.cfg.legal <;> simp [hl] at h <;> subst h
    · exact .inr (.inr ⟨hp, rfl, rfl⟩)
    · exact .inr (.inl ⟨hp, rfl, rfl⟩)

theorem execEndRun_next {s t : State} (h : execEndRun s = .next t) :
    (s.phase ≠ .run ∧ t = s.quiet.raise .proto)
      ∨ (s.phase = .run ∧ ∃ f, f = (if (!s.flags.any && s.cnt != 0) = true then s.flags.set .indiv else s.flags)
          ∧ t = { s with phase := .done, flags := f, events := [.fin f.cause] }) := by
  unfold execEndRun at h
  by_cases hp : s.phase = .run
  · rw [if_neg (by simp [hp])] at h
    refine .inr ⟨hp, _, rfl, ?_⟩
    cases h
    by_cases hc : (!s.flags.any && s.cnt != 0) = true
    · simp [hc, State.emit, State.raise, State.quiet]
    · rw [if_neg hc, if_neg hc]
      simp [State.emit, State.quiet]
  · rw [if_pos hp] at h
    cases h
    exact .inl ⟨hp, rfl⟩

theorem execCfgw_next {w : CfgWrite} {s t : State} (h : execCfgw w s = .next t) :
    ((s.phase = .run ∨ s.cfg.write w = none) ∧ t = s.quiet.raise .proto)
      ∨ (s.phase ≠ .run ∧ ∃ c, s.cfg.write w = some c ∧ t = { s.quiet with cfg := c }) := by
  unfold execCfgw at h
  cases hw : s.cfg.write w with
  | none =>
    simp only [hw] at h
    cases h
    exact .inl ⟨.inr rfl, rfl⟩
  | some c =>
    by_cases hp : s.phase = .run
    · simp only [hw, hp, if_true] at h
      cases h
      exact .inl ⟨.inl hp, rfl⟩
    · simp only [hw, hp, if_false] at h
      cases h
      exact .inr ⟨hp, c, rfl, rfl⟩

theorem execSmpc_next {c : SampleT} {s t : State} (h : execSmpc c s = .next t) :
    (s.phase ≠ .run ∧ t = s.quiet.raise .proto)
      ∨ (s.phase = .run ∧ s.cfg.thrLow ≤ s.cfg.thrHigh ∧ t = (cmpStep .clk c s.quiet).raise .len) := by
  rcases sampleBeat_next h with h | ⟨hp, hc, h⟩
  · exact .inl h
  · cases h
    exact .inr ⟨hp, hc, rfl⟩

theorem execSmpd_next {d : SampleT} {s t : State} (h : execSmpd d s = .next t) :
    (s.phase ≠ .run ∧ t = s.quiet.raise .proto)
      ∨ (s.phase = .run ∧ s.cfg.thrLow ≤ s.cfg.thrHigh ∧ t = (cmpStep .dat d s.quiet).raise .len) := by
  rcases sampleBeat_next h with h | ⟨hp, hc, h⟩
  · exact .inl h
  · cases h
    exact .inr ⟨hp, hc, rfl⟩

theorem execSmp2_next {c d : SampleT} {s t : State} (h : execSmp2 c d s = .next t) :
    (s.phase ≠ .run ∧ t = s.quiet.raise .proto)
      ∨ (s.phase = .run ∧ s.cfg.thrLow ≤ s.cfg.thrHigh ∧ (afterComparators c d s).flags.any = true
          ∧ t = afterComparators c d s)
      ∨ (s.phase = .run ∧ s.cfg.thrLow ≤ s.cfg.thrHigh ∧ (afterComparators c d s).flags.any = false
          ∧ ∃ qc qd, (afterComparators c d s).clk.hs.bit? = some qc ∧ (afterComparators c d s).dat.hs.bit? = some qd
            ∧ ¬(edgeSeen (afterComparators c d s) qc = true ∧ s.cfg.groupSize = 0)
            ∧ t = latStep (edgeSeen (afterComparators c d s) qc) qd (edgStep qc (afterComparators c d s))) := by
  rcases sampleBeat_next h with h | ⟨hp, hc, h⟩
  · exact .inl h
  · rcases gatedBeat_next h with ⟨ha, rfl⟩ | ⟨ha, qc, qd, h1, h2, h3, rfl⟩
    · exact .inr (.inl ⟨hp, hc, ha, rfl⟩)
    · exact .inr (.inr ⟨hp, hc, ha, qc, qd, h1, h2, fun h => h3 ⟨h.1, by simpa using h.2⟩, rfl⟩)

/-- A beat whose gate is open and that sees no edge: the edge detector alone moves. -/
theorem openBeat_noEdge (qc qd : Bool) (u : State) (he : edgeSeen u qc = false) :
    latStep (edgeSeen u qc) qd (edgStep qc u) = { u with edg := ⟨qc, true⟩ } := by
  rw [he, latStep_false, edgStep_eq, he]
  simp

/-- A beat whose gate is open and that sees an edge: edge detector, latch and group decoder. -/
theorem openBeat_edge (qc qd : Bool) (u : State) (he : edgeSeen u qc = true) :
    latStep (edgeSeen u qc) qd (edgStep qc u) = { u with
      edg := ⟨qc, true⟩, lbit := qd, nBits := u.nBits + 1,
      sh := if u.cnt + 1 = u.cfg.groupSize then 0 else shiftIn u.cfg.msbFirst u.sh u.cnt qd,
      cnt := if u.cnt + 1 = u.cfg.groupSize then 0 else u.cnt + 1,
      nVals := if u.cnt + 1 = u.cfg.groupSize then u.nVals + 1 else u.nVals,
      events := u.events ++ .edge :: .bit qd :: groupEvents qd u } := by
  rw [he, latStep_true, grpStep_eq, edgStep_eq, he]
  simp [State.emit, groupEvents]

/-- The state after a beat whose gate is open and that sees an edge, `u` the state after its comparators. -/
def edgeBeat (qc qd : Bool) (u : State) : State :=
  { u with
    edg := ⟨qc, true⟩, lbit := qd, nBits := u.nBits + 1,
    sh := if u.cnt + 1 = u.cfg.groupSize then 0 else shiftIn u.cfg.msbFirst u.sh u.cnt qd,
    cnt := if u.cnt + 1 = u.cfg.groupSize then 0 else u.cnt + 1,
    nVals := if u.cnt + 1 = u.cfg.groupSize then u.nVals + 1 else u.nVals,
    events := u.events ++ .edge :: .bit qd :: groupEvents qd u }

/-- Everything an operation can do when it answers a next state. -/
inductive ExecCase : Instr → State → State → Prop where
  | idle (s : State) : ExecCase .nop s s.quiet
  | protocol (i : Instr) (s : State) (h : isProtocolFault i s.phase = true) : ExecCase i s (s.quiet.raise .proto)
  | opened (s : State) (hp : s.phase ≠ .run) (hl : s.cfg.legal = true) :
      ExecCase .start s { s.quiet.clearRun with phase := .run }
  | notOpened (s : State) (hp : s.phase ≠ .run) (hl : s.cfg.legal = false) :
      ExecCase .start s { s.quiet.clearRun.raise .cfg with phase := .done, events := [.fin .badConfig] }
  | closed (s : State) (hp : s.phase = .run) (f : Flags)
      (hf : f = if (!s.flags.any && s.cnt != 0) = true then s.flags.set .indiv else s.flags) :
      ExecCase .endRun s { s with phase := .done, flags := f, events := [.fin f.cause] }
  | written (w : CfgWrite) (s : State) (c : CfgRegs) (hp : s.phase ≠ .run) (hw : s.cfg.write w = some c) :
      ExecCase (.cfgw w) s { s.quiet with cfg := c }
  | clockOnly (c : SampleT) (s : State) (hp : s.phase = .run) (hl : s.cfg.thrLow ≤ s.cfg.thrHigh) :
      ExecCase (.smpc c) s ((cmpStep .clk c s.quiet).raise .len)
  | dataOnly (d : SampleT) (s : State) (hp : s.phase = .run) (hl : s.cfg.thrLow ≤ s.cfg.thrHigh) :
      ExecCase (.smpd d) s ((cmpStep .dat d s.quiet).raise .len)
  | gateClosed (c d : SampleT) (s : State) (hp : s.phase = .run) (hl : s.cfg.thrLow ≤ s.cfg.thrHigh)
      (ha : (afterComparators c d s).flags.any = true) : ExecCase (.smp2 c d) s (afterComparators c d s)
  | noEdge (c d : SampleT) (s : State) (qc qd : Bool) (hp : s.phase = .run) (hl : s.cfg.thrLow ≤ s.cfg.thrHigh)
      (ha : (afterComparators c d s).flags.any = false) (hc : (afterComparators c d s).clk.hs.bit? = some qc)
      (hd : (afterComparators c d s).dat.hs.bit? = some qd) (he : edgeSeen (afterComparators c d s) qc = false) :
      ExecCase (.smp2 c d) s { afterComparators c d s with edg := ⟨qc, true⟩ }
  | edge (c d : SampleT) (s : State) (qc qd : Bool) (hp : s.phase = .run) (hl : s.cfg.thrLow ≤ s.cfg.thrHigh)
      (ha : (afterComparators c d s).flags.any = false) (hc : (afterComparators c d s).clk.hs.bit? = some qc)
      (hd : (afterComparators c d s).dat.hs.bit? = some qd) (he : edgeSeen (afterComparators c d s) qc = true)
      (hg : s.cfg.groupSize ≠ 0) : ExecCase (.smp2 c d) s (edgeBeat qc qd (afterComparators c d s))

/-- The inversion of `exec`: every next state is one of these. -/
theorem exec_cases {i : Instr} {s t : State} (h : exec i s = .next t) : ExecCase i s t := by
  cases i with
  | nop => cases h; exact .idle s
  | rsvd => cases h; exact .protocol _ s rfl
  | start =>
    rcases execStart_next h with ⟨hp, rfl⟩ | ⟨hp, hl, rfl⟩ | ⟨hp, hl, rfl⟩
    · exact .protocol _ s (by simp [isProtocolFault, hp])
    · exact .opened s hp hl
    · exact .notOpened s hp hl
  | endRun =>
    rcases execEndRun_next h with ⟨hp, rfl⟩ | ⟨hp, f, hf, rfl⟩
    · exact .protocol _ s (by simp [isProtocolFault, hp])
    · exact .closed s hp f hf
  | cfgw w =>
    rcases execCfgw_next h with ⟨hp, rfl⟩ | ⟨hp, c, hc, rfl⟩
    · refine .protocol _ s ?_
      cases w <;> simp_all [isProtocolFault, CfgRegs.write]
    · exact .written w s c hp hc
  | smpc c =>
    rcases execSmpc_next h with ⟨hp, rfl⟩ | ⟨hp, hl, rfl⟩
    · exact .protocol _ s (by simp [isProtocolFault, hp])
    · exact .clockOnly c s hp hl
  | smpd d =>
    rcases execSmpd_next h with ⟨hp, rfl⟩ | ⟨hp, hl, rfl⟩
    · exact .protocol _ s (by simp [isProtocolFault, hp])
    · exact .dataOnly d s hp hl
  | smp2 c d =>
    rcases execSmp2_next h with ⟨hp, rfl⟩ | ⟨hp, hl, ha, rfl⟩ | ⟨hp, hl, ha, qc, qd, e1, e2, hz, rfl⟩
    · exact .protocol _ s (by simp [isProtocolFault, hp])
    · exact .gateClosed c d s hp hl ha
    · cases he : edgeSeen (afterComparators c d s) qc with
      | false =>
        rw [← he, openBeat_noEdge qc qd _ he]
        exact .noEdge c d s qc qd hp hl ha e1 e2 he
      | true =>
        rw [← he, openBeat_edge qc qd _ he]
        exact .edge c d s qc qd hp hl ha e1 e2 he fun h => hz ⟨he, h⟩

end Sys2Proof.Machine
end

