-- ==== Sys2Proof/Laws/PerInstr.lean ====
section
/-! SUPPORT. What holds of every operation as syntax, one lemma per constructor: the `op` field of its word is the code
of its row (30_encoding.md R52). -/

namespace Sys2Proof.Laws.TableRow

/-- The `op` field of the operation's word is the code of its mnemonic. -/
def Statement (i : Instr) : Prop :=
  opField (encode i) = i.mnemonic.code

/-- The `op` field of a word put together from three fields. -/
theorem opField_wordOf (op : OpField) (a b : OperandField) : opField (wordOf op a b) = op := by
  apply BitVec.eq_of_getLsbD_eq
  intro k hk
  have h1 : ¬(32 + k < 16) := by omega
  have h2 : ¬(32 + k - 16 < 16) := by omega
  have h3 : 32 + k - 16 - 16 = k := by omega
  have h : (op ++ a ++ b : BitVec (3 + 16 + 16)).getLsbD (32 + k) = op.getLsbD k := by
    rw [BitVec.getLsbD_append, if_neg h1, BitVec.getLsbD_append, if_neg h2, h3]
  rw [opField, BitVec.getLsbD_extractLsb', wordOf]
  simpa [hk] using h

theorem nop : Statement .nop := opField_wordOf _ _ _
theorem start : Statement .start := opField_wordOf _ _ _
theorem smp2 (c d : SampleT) : Statement (.smp2 c d) := opField_wordOf _ _ _
theorem smpc (c : SampleT) : Statement (.smpc c) := opField_wordOf _ _ _
theorem smpd (d : SampleT) : Statement (.smpd d) := opField_wordOf _ _ _
theorem endRun : Statement .endRun := opField_wordOf _ _ _
theorem cfgw (w : CfgWrite) : Statement (.cfgw w) := opField_wordOf _ _ _
theorem rsvd : Statement .rsvd := opField_wordOf _ _ _

end Sys2Proof.Laws.TableRow
end

