-- ==== Sys2Proof/Tests/Slice0.lean ====
section
/-! SUPPORT. The model's own tests. The expected values come from spec/: 30_encoding.md R51, R59 and
95_test_vectors.md (the vector is named in each comment). After them, one witness for the hypotheses of each statement
of Certificates/Slice0/Obligations.lean. -/

namespace Sys2Proof.Tests

open Sys2Proof Sys2Proof.Machine

/-! ## Well-formedness smoke tests: each ill-formed operation is refused -/

theorem test_wf_half_millivolt : (Instr.smp2 (1 / 2) 0).wf = false := by decide +kernel
theorem test_wf_sample_above : (Instr.smpc 32768).wf = false := by decide
theorem test_wf_sample_below : (Instr.smpd (-32769)).wf = false := by decide
theorem test_wf_data_sample : (Instr.smp2 0 40000).wf = false := by decide
theorem test_wf_threshold_low : (Instr.cfgw (.thrLow 32768)).wf = false := by decide
theorem test_wf_threshold_high : (Instr.cfgw (.thrHigh (-40000))).wf = false := by decide
theorem test_wf_group_size : (Instr.cfgw (.groupSize 65536)).wf = false := by decide
theorem test_wf_encoder_refuses :
    encodeWord (.cfgw (.groupSize 65536)) = .error .notPresentable := by rfl
theorem test_wf_limits : (Instr.smp2 (-32768) 32767).wf = true ∧ (Instr.cfgw (.groupSize 65535)).wf = true := by
  decide

/-! ## Decoding: words written out field by field, op A B (R50, R52, R53, R59) -/

theorem test_decode_nop : decode 0b000_0000000000000000_0000000000000000#35 = .nop := by decide
theorem test_decode_start : decode 0b001_0000000000000000_0000000000000000#35 = .start := by decide
theorem test_decode_smp2 : decode 0b010_0000110011100100_1111111000001100#35 = .smp2 3300 (-500) := by decide
theorem test_decode_smpc : decode 0b011_0000010111011100_0000000000000000#35 = .smpc 1500 := by decide
theorem test_decode_smpd : decode 0b100_0000000000000000_0000100111000100#35 = .smpd 2500 := by decide
theorem test_decode_end : decode 0b101_0000000000000000_0000000000000000#35 = .endRun := by decide
theorem test_decode_rsvd : decode 0b111_0000000000000000_0000000000000000#35 = .rsvd := by decide
theorem test_decode_cfgw_thrLow :
    decode 0b110_0000000000000000_0000001100100000#35 = .cfgw (.thrLow 800) := by decide
theorem test_decode_cfgw_thrHigh :
    decode 0b110_0000000000000001_0000011111010000#35 = .cfgw (.thrHigh 2000) := by decide
theorem test_decode_cfgw_risingEdge :
    decode 0b110_0000000000000010_0000000000000000#35 = .cfgw (.risingEdge false) := by decide
/-- `GROUP_SIZE` is unsigned (R53). -/
theorem test_decode_cfgw_groupSize :
    decode 0b110_0000000000000011_1111111111111111#35 = .cfgw (.groupSize 65535) := by decide
theorem test_decode_cfgw_msbFirst :
    decode 0b110_0000000000000100_0000000000000001#35 = .cfgw (.msbFirst true) := by decide
theorem test_decode_cfgw_asHex :
    decode 0b110_0000000000000101_0000000000000000#35 = .cfgw (.asHex false) := by decide
theorem test_decode_cfgw_reserved :
    decode 0b110_0000000000000110_0000000000000000#35 = .cfgw (.reserved .six)
      ∧ decode 0b110_0000000000000111_0000000000000000#35 = .cfgw (.reserved .seven) := by decide
/-- `A[15:3]` and `B[15:1]` are ignored (R53). -/
theorem test_decode_ignored :
    decode 0b110_1111111111111101_1111111111111110#35 = .cfgw (.asHex false)
      ∧ decode 0b100_1010101010101010_0000000000000001#35 = .smpd 1 := by decide
theorem test_decode_number_too_wide : decodeNat (2 ^ 35) = .error .widerThanOpWord := by rfl
/-- R59: the words that an assembler emits. -/
theorem test_encode_listed :
    encode (.smp2 3300 0) = 0x20CE40000#35 ∧ encode (.smpc 1500) = 0x305DC0000#35
      ∧ encode (.cfgw (.thrHigh 2000)) = 0x6000107D0#35 ∧ encode (.smp2 (-500) (-500)) = 0x2FE0CFE0C#35 := by decide
theorem test_assemble_volts :
    assemble ⟨.SMP2, [.number (33 / 10), .number (-1 / 2)]⟩ = some (.smp2 3300 (-500))
      ∧ assemble ⟨.CFGW, [.reg .GROUP_SIZE, .number 8]⟩ = some (.cfgw (.groupSize 8))
      ∧ assemble ⟨.CFGW, [.reg .AS_HEX, .number 2]⟩ = none := by decide +kernel
theorem test_word_text :
    wordText 0x20CE40000#35 = ['0', 'x', '2', '0', 'c', 'e', '4', '0', '0', '0', '0'] := by decide

/-! ## The units -/

/-- T-C1, T-C2, T-C3, T-C8 (log 11). -/
theorem test_first_sample :
    cmpFirst (800 : SampleT) 2000 2000 = .high ∧ cmpFirst (800 : SampleT) 2000 800 = .low
      ∧ cmpFirst (800 : SampleT) 2000 1999 = .undet ∧ cmpFirst (1500 : SampleT) 1500 1500 = .high := by decide
/-- T-C11, T-C12, T-C14, T-C15, T-C17, T-C18, T-C19. -/
theorem test_later_sample :
    cmpLater (800 : SampleT) 2000 .low 2000 = .high ∧ cmpLater (800 : SampleT) 2000 .low 1999 = .low
      ∧ cmpLater (800 : SampleT) 2000 .high 800 = .low ∧ cmpLater (800 : SampleT) 2000 .high 801 = .high
      ∧ cmpLater (800 : SampleT) 2000 .undet 3300 = .undet ∧ cmpLater (1500 : SampleT) 1500 .low 1500 = .high
      ∧ cmpLater (1500 : SampleT) 1500 .high 1500 = .low := by decide
/-- S3 of section 1. -/
theorem test_digitize : digitize 800 2000 [(0 : SampleT), 1500, 2500, 1000, 500]
    = .ok [false, false, true, true, false] := by rfl
/-- S1 of section 1. -/
theorem test_latch :
    latch [false, false, true, true, false, false, true, true] [false, true, true, false, false, true, true, false] true
      = .ok [true, true] := by rfl
/-- T-S5, T-S12. -/
theorem test_shiftIn : shiftIn true 90 7 false = 180 ∧ shiftIn false 45 7 true = 173 := by decide
/-- S2 of section 1, and `[1,1,0]` of 2.4. -/
theorem test_chunkValue :
    chunkValue [true, false, false, false, false, false, false, false] true = 0x80
      ∧ chunkValue [true, false, false, false, false, false, false, false] false = 0x01
      ∧ chunkValue [true, true, false] true = 6 ∧ chunkValue [true, true, false] false = 3 := by decide
/-- T-D11, T-D15. -/
theorem test_expand :
    expand 180 8 false = [false, false, true, false, true, true, false, true]
      ∧ expand 6 3 false = [false, true, true] := by decide
/-- T-H2, T-H3, T-H10, T-H14. -/
theorem test_hexStr :
    hexStr .fixed 1 8 = ['0', 'x', '0', '1'] ∧ hexStr .minimal 1 8 = ['0', 'x', '1']
      ∧ hexStr .minimal 0 8 = ['0', 'x', '0'] ∧ hexStr .fixed 513 10 = ['0', 'x', '2', '0', '1']
      ∧ hexStr .fixed 43981 16 = ['0', 'x', 'a', 'b', 'c', 'd'] := by decide
/-- R120. -/
theorem test_ascii : asciiCodes (hexStr .fixed 180 8) = [0x30#8, 0x78#8, 0x62#8, 0x34#8] := by decide
/-- The batch function `decode` of 2.5. -/
theorem test_decodeBits :
    decodeBits [true, false, true, false, false, true, false, true] 4 true false = .ok [.int 10, .int 5]
      ∧ decodeBits [true, true, true] 2 true true = .error .indiv := ⟨rfl, rfl⟩

/-! ## Small states -/

/-- A run just opened. -/
def opened : State := { State.reset with phase := .run }

/-- The state of the example of R133, with one action for the host to present. -/
def mid : State :=
  { State.reset with
    phase := .run, clk := ⟨.low, 2⟩, dat := ⟨.high, 2⟩, edg := ⟨false, true⟩, inputs := [.op .endRun] }

/-- The same after two latched bits, none emitted: two bits of a group of eight. -/
def twoBits : State :=
  { mid with clk := ⟨.high, 4⟩, dat := ⟨.high, 4⟩, edg := ⟨true, true⟩, lbit := true, nBits := 2, sh := 3, cnt := 2 }

/-- A run with the length flag set. -/
def mismatched : State := { mid with flags := { Flags.clear with len := true } }

/-- A run in groups of one bit. -/
def oneBit : State := { mid with cfg := { CfgRegs.reset with groupSize := 1 } }

/-- A run that is over, in which the thresholds have been inverted. -/
def inverted : State := { State.reset with phase := .done, cfg := { CfgRegs.reset with thrLow := 2001 } }

/-- A configuration with groups of one bit, before its run. -/
def beforeRun : State := { State.reset with cfg := { CfgRegs.reset with groupSize := 1 } }

/-! ## One step -/

theorem test_nop : exec .nop mid = .next mid := rfl
theorem test_start : exec .start State.reset = .next opened := rfl
/-- R166, program P7: a refused start. -/
theorem test_start_refused : ∃ t, exec .start inverted = .next t ∧ t.phase = .done ∧ t.events = [.fin .badConfig] :=
  ⟨_, rfl, by decide⟩
/-- The example of R133. -/
theorem test_smp2 : ∃ t, exec (.smp2 3300 3300) mid = .next t
    ∧ t.events = [.dig .clk true, .dig .dat true, .edge, .bit true]
    ∧ t.edg = ⟨true, true⟩ ∧ t.lbit = true ∧ t.nBits = 1 ∧ t.sh = 1 ∧ t.cnt = 1 := ⟨_, rfl, by decide⟩
/-- T-L5 at its third beat: value and hex string in the step of the last bit. -/
theorem test_smp2_group : ∃ t, exec (.smp2 3300 0) oneBit = .next t
    ∧ t.events = [.dig .clk true, .dig .dat false, .edge, .bit false, .val 0, .hex ['0', 'x', '0']]
    ∧ t.nVals = 1 ∧ t.cnt = 0 := ⟨_, rfl, by decide⟩
theorem test_smpc : ∃ t, exec (.smpc 3300) mid = .next t
    ∧ t.events = [.dig .clk true] ∧ t.flags.cause = .lenMismatch ∧ t.clk.n = 3 ∧ t.dat.n = 2 := ⟨_, rfl, by decide⟩
/-- R169 (c): an ambiguous first data sample alone. -/
theorem test_smpd_ambiguous : ∃ t, exec (.smpd 1500) opened = .next t
    ∧ t.events = [] ∧ t.flags.cause = .ambigDat ∧ t.flags.len = true ∧ t.dat = ⟨.undet, 1⟩ := ⟨_, rfl, by decide⟩
/-- The example of R136. -/
theorem test_end_indivisible : ∃ t, exec .endRun twoBits = .next t
    ∧ t.events = [.fin .indivisible] ∧ t.phase = .done ∧ t.cnt = 2 ∧ t.status = 0x22#8 := ⟨_, rfl, by decide⟩
theorem test_end_empty : ∃ t, exec .endRun opened = .next t ∧ t.events = [.fin .none] ∧ t.status = 0x02#8 :=
  ⟨_, rfl, by decide⟩
theorem test_cfgw : ∃ t, exec (.cfgw (.groupSize 2)) State.reset = .next t ∧ t.cfg.groupSize = 2 ∧ t.flags = .clear :=
  ⟨_, rfl, by decide⟩
theorem test_cfgw_reserved : ∃ t, exec (.cfgw (.reserved .six)) State.reset = .next t ∧ t.cfg = CfgRegs.reset
    ∧ t.flags.cause = .protocol := ⟨_, rfl, by decide⟩
theorem test_rsvd : ∃ t, exec .rsvd State.reset = .next t ∧ t.status = 0x80#8 ∧ t.phase = .idle := ⟨_, rfl, by decide⟩
/-- `rst` wins over the word. -/
theorem test_reset_pin : ∃ t, step { mid with inputs := [.pins true 0x20CE40CE4#35] } = .next t
    ∧ t = State.reset := ⟨_, rfl, by decide⟩
/-- The word of `SMP2 3.3, 3.3` placed on the port. -/
theorem test_fetch : step (mid.withFetchWord 40 0x20CE40CE4) = exec (.smp2 3300 3300) mid := rfl
theorem test_ports : ∃ t, exec (.smp2 3300 3300) mid = .next t ∧ t.ports.edge = true ∧ t.ports.clkDig = some true
    ∧ t.ports.val = none ∧ t.ports.bit = true ∧ t.ports.status = 0x01#8 := ⟨_, rfl, by decide⟩
theorem test_cause_priority : (Flags.mk true true true true true true).cause = .protocol
    ∧ (Flags.mk true true true true true false).cause = .badConfig
    ∧ (Flags.mk false true true true false false).cause = .ambigDat := by decide

/-! ## Witnesses: states and operands that meet the hypotheses of each statement -/

/-- Two beats of a run in groups of one bit: the clock rises with the data high. -/
def twoBeats : List Instr := [.smp2 0 3300, .nop, .smp2 3300 3300]

/-- Three beats whose clock samples sit on the thresholds: levels 0, 1, 0. -/
def onThresholds : List Instr := [.smp2 0 0, .smp2 2000 0, .smp2 800 0]

theorem mid_inv : mid.Inv := by
  constructor
  case groups => exact ⟨8, by unfold State.groupsFit; decide⟩
  case groupsRun => exact fun _ => by unfold State.groupsFit; decide
  all_goals decide

theorem witness_DecodeEncodeAgree :
    (Instr.smp2 (-32768) 32767).wf = true ∧ (Instr.cfgw (.groupSize 65535)).wf = true
      ∧ (Instr.cfgw (.thrLow (-500))).wf = true ∧ (Instr.cfgw (.reserved .seven)).wf = true := by decide
/-- T-W3, T-W11, T-W16. -/
theorem witness_IgnoredBitsAreNotExamined :
    0x1DEADBEEF#35 &&& (decode 0x100000000#35).usedBits = 0x100000000#35 &&& (decode 0x100000000#35).usedBits
      ∧ 0x6FFF30008#35 &&& (decode 0x600030008#35).usedBits = 0x600030008#35 &&& (decode 0x600030008#35).usedBits
      ∧ 0x60004FFFE#35 &&& (decode 0x600040000#35).usedBits = 0x600040000#35 &&& (decode 0x600040000#35).usedBits := by
  decide
theorem witness_OnlyWholeMillivoltsInRangeFit :
    (Instr.smpc 32768).wf = false ∧ (Instr.smpc 32767).wf = true := by decide
theorem witness_StepExecutesThePresentedOperation :
    ({ mid with inputs := [.pins false 0x20CE40CE4#35] } : State).inputs = .pins false 0x20CE40CE4#35 :: []
      ∧ mid.inputs = .op .endRun :: [] := by decide
theorem witness_PlacedWordIsExecutedNext :
    decodeTableWord 40 0x20CE40CE4 = some (.smp2 3300 3300) ∧ State.reset.inputs = [] := by decide
theorem witness_ResetValuesAreTheTable :
    State.reset.phase ≠ .run ∧ State.reset.cfg.legal = true ∧ inverted.phase ≠ .run ∧ inverted.cfg.legal = false := by
  decide
theorem witness_ResetIsComplete :
    ({ mid with inputs := [.reset, .op .start] } : State).inputs = .reset :: [.op .start]
      ∧ ({ mid with inputs := [.pins true 0#35, .op .start] } : State).inputs = .pins true 0#35 :: [.op .start] := by
  decide
theorem witness_SteppingIsExecutingInOrder :
    ∃ t es, runOps [.start, .nop] { State.reset with inputs := [] } = .next (t, es) := ⟨_, _, rfl⟩
theorem witness_NopChangesNothing : ∃ t es, runOps [.start, .nop, .endRun] State.reset = .next (t, es) := ⟨_, _, rfl⟩
theorem witness_StartOpensOrRefusesTheRun :
    mid.phase = .run ∧ State.reset.phase ≠ .run
      ∧ ¬(State.reset.cfg.thrHigh < State.reset.cfg.thrLow ∨ State.reset.cfg.groupSize < 1)
      ∧ inverted.phase ≠ .run ∧ (inverted.cfg.thrHigh < inverted.cfg.thrLow ∨ inverted.cfg.groupSize < 1) := by decide
theorem witness_PairedBeatRunsTheUnitsInOrder :
    State.reset.phase ≠ .run ∧ mid.phase = .run ∧ mid.cfg.thrLow ≤ mid.cfg.thrHigh ∧ 1 ≤ mid.cfg.groupSize
      ∧ (cmpStep .dat 0 (cmpStep .clk 3300 { mid with events := [] })).flags.any = false
      ∧ (cmpStep .dat 0 (cmpStep .clk 3300 { mid with events := [] })).clk.hs.bit? = some true
      ∧ (cmpStep .dat 0 (cmpStep .clk 3300 { mid with events := [] })).dat.hs.bit? = some false
      ∧ (cmpStep .dat 0 (cmpStep .clk 3300 { mismatched with events := [] })).flags.any = true := by decide
theorem witness_UnpairedBeatStepsOneComparator :
    State.reset.phase ≠ .run ∧ mid.phase = .run ∧ mid.cfg.thrLow ≤ mid.cfg.thrHigh := by decide
theorem witness_EndClosesTheRun : State.reset.phase ≠ .run ∧ twoBits.phase = .run ∧ mismatched.phase = .run := by decide
theorem witness_CfgwWritesTheNamedRegister : mid.phase = .run ∧ State.reset.phase ≠ .run := by decide
theorem witness_ProtocolFaultOnlySetsItsFlag :
    isProtocolFault (.smpc 0) State.reset.phase = true ∧ isProtocolFault .start mid.phase = true
      ∧ isProtocolFault (.smpc 0) mid.phase = false
      ∧ ∃ t, exec .nop { mid with flags := { Flags.clear with proto := true } } = .next t ∧ t.flags.proto = true :=
  ⟨rfl, rfl, rfl, _, rfl, rfl⟩
theorem witness_PhaseMachineIsTheTable :
    (∃ t, exec .endRun mid = .next t) ∧ isProtocolFault .rsvd .idle = true
      ∧ (∃ t, inverted.phase ≠ .run ∧ exec .start inverted = .next t)
      ∧ isProtocolFault (.cfgw (.asHex false)) inverted.phase = false
      ∧ ∃ t, exec (.cfgw (.asHex false)) inverted = .next t :=
  ⟨⟨_, rfl⟩, rfl, ⟨_, by decide, rfl⟩, rfl, _, rfl⟩
theorem witness_BeatsWithoutMeaningStop_inverted :
    isBeat (.smpd 0) = true ∧ ({ inverted with phase := .run } : State).phase = .run
      ∧ ({ inverted with phase := .run } : State).cfg.thrHigh < ({ inverted with phase := .run } : State).cfg.thrLow := by
  decide
/-- A later sample of an `UNDET` channel with no flag set. -/
theorem witness_BeatsWithoutMeaningStop_undetermined : ∃ s u : State, s.phase = .run ∧ s.cfg.thrLow ≤ s.cfg.thrHigh
    ∧ u = cmpStep .dat 0 (cmpStep .clk 0 { s with events := [] }) ∧ u.flags.any = false ∧ u.clk.hs = .undet :=
  ⟨{ mid with clk := ⟨.undet, 2⟩ }, _, by decide, by decide, rfl, by decide, by decide⟩
theorem witness_BeatsWithoutMeaningStop_zeroGroup : ∃ s u : State, s.phase = .run ∧ s.cfg.thrLow ≤ s.cfg.thrHigh
    ∧ u = cmpStep .dat 0 (cmpStep .clk 3300 { s with events := [] }) ∧ u.flags.any = false
    ∧ u.clk.hs.bit? = some true ∧ u.dat.hs.bit? = some false ∧ edgeSeen u true = true ∧ s.cfg.groupSize = 0 :=
  ⟨{ mid with cfg := { CfgRegs.reset with groupSize := 0 } }, _, by decide, by decide, rfl, by decide, by decide,
    by decide, by decide, by decide⟩
theorem witness_BeatsWithoutMeaningStop_counter : 2 ^ 2 ≤ ({ mid with nVals := 4 } : State).nVals := by decide
theorem witness_SampleBeatFrame :
    (∃ t, isBeat (.smp2 3300 0) = true ∧ exec (.smp2 3300 0) mid = .next t ∧ isPaired (.smp2 3300 0) = true
        ∧ mid.phase = .run)
      ∧ ∃ t, isBeat (.smpd 0) = true ∧ exec (.smpd 0) mid = .next t ∧ isPaired (.smpd 0) = false
        ∧ sampleOf? .clk (.smpd 0) = none ∧ sampleOf? .dat (.smpc 0) = none :=
  ⟨⟨_, rfl, rfl, rfl, rfl⟩, _, rfl, rfl, rfl, rfl, rfl⟩
theorem witness_ControlOperationFrame :
    (∃ t, isBeat .endRun = false ∧ exec .endRun twoBits = .next t)
      ∧ (∃ t, isBeat (.cfgw (.groupSize 0)) = false ∧ exec (.cfgw (.groupSize 0)) State.reset = .next t
        ∧ (CfgWrite.groupSize 0).regNumber ≠ 0)
      ∧ (CfgWrite.thrLow 0).regNumber ≠ 5 := ⟨⟨_, rfl, rfl⟩, ⟨_, rfl, rfl, by decide⟩, by decide⟩
theorem witness_SetFlagClosesTheGate :
    (∃ t, isBeat (.smp2 3300 0) = true ∧ exec (.smp2 3300 0) mismatched = .next t ∧ t.flags.any = true)
      ∧ mismatched.phase = .run ∧ mismatched.flags.any = true ∧ sampleOf? .clk (.smp2 3300 0) = some 3300
      ∧ (∃ t, exec (.smpd 0) mid = .next t ∧ t.flags.any = true ∧ t.dat.hs.bit? = some false) :=
  ⟨⟨_, rfl, rfl, by decide⟩, rfl, rfl, rfl, _, rfl, by decide, by decide⟩
theorem witness_FlagsAreSticky :
    (∃ t, exec .start mismatched = .next t) ∧ mismatched.phase = .run ∧ ∃ t, exec .endRun mismatched = .next t :=
  ⟨⟨_, rfl⟩, rfl, _, rfl⟩
theorem witness_ConfigurationIsFrozenInRun :
    (∃ t, exec (.cfgw (.asHex false)) State.reset = .next t ∧ t.cfg ≠ State.reset.cfg) ∧ mid.phase = .run :=
  ⟨⟨_, rfl, by decide⟩, rfl⟩
theorem witness_EventsComeInPipelineOrder : ∃ t, exec (.smp2 3300 0) oneBit = .next t := ⟨_, rfl⟩
theorem witness_CountersCountTheirEvents :
    (∃ t, exec (.smp2 3300 0) oneBit = .next t) ∧ (∃ t, exec .start mid = .next t ∧ mid.phase = .run)
      ∧ ∃ t, inverted.phase ≠ .run ∧ exec .start inverted = .next t := ⟨⟨_, rfl⟩, ⟨_, rfl, rfl⟩, _, by decide, rfl⟩
theorem witness_AmbiguousSampleIsAFirstSample :
    (∃ t, exec (.smp2 1999 801) opened = .next t ∧ opened.flags.ambigClk = false ∧ t.flags.ambigClk = true
        ∧ t.flags.ambigDat = true)
      ∧ opened.phase = .run ∧ opened.dat.n = 0 ∧ sampleOf? .dat (.smp2 1999 801) = some 801
      ∧ opened.cfg.thrLow < (801 : SampleT) ∧ (1999 : SampleT) < opened.cfg.thrHigh
      ∧ ∃ t, exec (.smpc 3300) { mid with clk := ⟨.undet, 2⟩ } = .next t :=
  ⟨⟨_, rfl, rfl, by decide, by decide⟩, rfl, rfl, rfl, by decide, by decide, _, rfl⟩
theorem witness_LengthMismatchIsAnUnpairedBeat :
    (∃ t, exec (.smpc 0) mid = .next t ∧ mid.phase = .run ∧ isBeat (.smpc 0) = true ∧ isPaired (.smpc 0) = false)
      ∧ beforeRun.phase ≠ .run ∧ beforeRun.cfg.legal = true
      ∧ (∃ t es, runOps (capture [0, 3300] [0]) beforeRun = .next (t, es))
      ∧ ∃ t es, runOps (capture [0] [0]) beforeRun = .next (t, es) :=
  ⟨⟨_, rfl, rfl, rfl, rfl⟩, by decide, by decide, ⟨_, _, rfl⟩, _, _, rfl⟩
theorem witness_IndivisibleIsFoundAtEnd :
    (∃ t, exec .endRun twoBits = .next t ∧ twoBits.flags.indiv = false) ∧ mid.Inv ∧ mid.phase = .run :=
  ⟨⟨_, rfl, rfl⟩, mid_inv, rfl⟩
theorem witness_BadConfigIsFoundAtStart :
    (∃ t, exec .start inverted = .next t ∧ inverted.flags.cfg = false) ∧ inverted.phase ≠ .run
      ∧ inverted.cfg.thrHigh < inverted.cfg.thrLow
      ∧ ∃ t, exec .start { State.reset with cfg := { CfgRegs.reset with groupSize := 0 } } = .next t :=
  ⟨⟨_, rfl, rfl⟩, by decide, by decide, _, rfl⟩
/-- One sample for each clause, at the boundary values of the thresholds 800 and 2000. -/
theorem witness_ComparatorFollowsItsTable :
    opened.clk.n = 0 ∧ opened.cfg.thrHigh ≤ (2000 : SampleT) ∧ (800 : SampleT) ≤ opened.cfg.thrLow
      ∧ opened.cfg.thrLow < (801 : SampleT) ∧ (1999 : SampleT) < opened.cfg.thrHigh ∧ mid.clk.n ≠ 0
      ∧ mid.clk.hs = .low ∧ mid.dat.hs = .high ∧ ({ mid with clk := ⟨.undet, 2⟩ } : State).clk.hs = .undet := by decide
theorem witness_EdgeDetectorFollowsItsRule :
    ∃ t, opened.edg.cprevValid = false ∧ exec (.smp2 3300 3300) opened = .next t := ⟨_, rfl, rfl⟩
theorem witness_LatchTakesTheLevelOfItsBeat :
    mid.phase = .run ∧ (∃ t, exec (.smp2 3300 0) mid = .next t ∧ Event.edge ∈ t.events)
      ∧ ∃ t, exec (.smp2 0 0) mid = .next t ∧ Event.edge ∉ t.events :=
  ⟨rfl, ⟨_, rfl, by decide⟩, _, rfl, by decide⟩
theorem witness_GroupStepFollowsItsRule :
    oneBit.cnt + 1 = oneBit.cfg.groupSize ∧ oneBit.cfg.asHex = true ∧ mid.cnt + 1 ≠ mid.cfg.groupSize
      ∧ ({ CfgRegs.reset with asHex := false } : CfgRegs).asHex = false := by decide
theorem witness_ShiftInNeverOverflows : (127 : Nat) < 2 ^ 7 ∧ (7 : Nat) < 8 ∧ (0 : Nat) < 2 ^ 0 ∧ (0 : Nat) < 1 := by
  decide
theorem witness_ExpandInvertsChunkValue :
    (255 : Nat) < 2 ^ 8 ∧ (0 : Nat) < 2 ^ 0 ∧ hexStr .fixed 180 8 = hexStr .fixed 180 8 := by decide
/-- Group sizes on both sides of a digit. -/
theorem witness_HexStringHasFixedWidth :
    ((1 : Nat) ≤ 4 ∧ 15 < 2 ^ 4 ∧ 4 ≤ 4 * 1 ∧ 4 * 1 < 4 + 4) ∧ ((1 : Nat) ≤ 5 ∧ 31 < 2 ^ 5 ∧ 5 ≤ 4 * 2 ∧ 4 * 2 < 5 + 4) := by
  decide
theorem witness_MinimalHexStripsLeadingZeros : (1 : Nat) ≤ 1 ∧ (0 : Nat) < 2 ^ 1 ∧ (1 : Nat) < 2 ^ 8 := by decide
/-- T-S section: the palindrome `0xa5`. -/
theorem witness_PalindromesIgnoreTheBitOrder :
    [true, false, true, false, false, true, false, true].reverse = [true, false, true, false, false, true, false, true]
      ∧ mid.phase = .run ∧ ∃ t, exec (.cfgw (.msbFirst false)) mid = .next t := ⟨rfl, rfl, _, rfl⟩
theorem oneBit_inv : oneBit.Inv := by
  constructor
  case groups => exact ⟨1, by unfold State.groupsFit; decide⟩
  case groupsRun => exact fun _ => by unfold State.groupsFit; decide
  all_goals decide
theorem witness_GroupsOfOneEmitEveryBit :
    oneBit.Inv ∧ oneBit.phase = .run ∧ oneBit.cfg.groupSize = 1
      ∧ ∃ t, exec (.smp2 3300 3300) oneBit = .next t ∧ Event.bit true ∈ t.events :=
  ⟨oneBit_inv, rfl, rfl, _, rfl, by decide⟩
/-- From millivolts to volts. -/
theorem witness_OnlyTheOrderOfSamplesMatters : StrictMono fun x : SampleT => x / 1000 := fun _ _ h => by
  simpa using div_lt_div_of_pos_right h (by norm_num : (0 : ℚ) < 1000)
theorem witness_DeadBandIsStable :
    beforeRun.phase ≠ .run ∧ beforeRun.cfg.legal = true ∧ (∀ i ∈ onThresholds, isBeat i = true ∨ i = .nop)
      ∧ (∃ t es, runOps (.start :: onThresholds) beforeRun = .next (t, es)
        ∧ es.filterMap (Event.digBit? .clk) = [false, true, false])
      ∧ channelSamples .clk onThresholds = [0, 2000, 800] :=
  ⟨by decide, by decide, by decide, ⟨_, _, rfl, by decide⟩, by decide⟩
theorem witness_RunDigitizesItsChannels :
    beforeRun.phase ≠ .run ∧ beforeRun.cfg.legal = true ∧ (∀ i ∈ twoBeats, isBeat i = true ∨ i = .nop)
      ∧ digitize beforeRun.cfg.thrLow beforeRun.cfg.thrHigh (channelSamples .clk twoBeats) = .ok [false, true]
      ∧ digitize beforeRun.cfg.thrLow beforeRun.cfg.thrHigh (channelSamples .clk [.smpc 1999]) = .error .ambig :=
  ⟨by decide, by decide, by decide, rfl, rfl⟩
theorem witness_RunLatchesItsBits :
    beforeRun.phase ≠ .run ∧ beforeRun.cfg.legal = true ∧ (∀ i ∈ twoBeats, isPaired i = true ∨ i = .nop)
      ∧ ∃ t es, runOps (.start :: (twoBeats ++ [.endRun])) beforeRun = .next (t, es)
        ∧ t.flags.ambigClk = false ∧ t.flags.ambigDat = false ∧ es.filterMap Event.bit? = [true] :=
  ⟨by decide, by decide, by decide, _, _, rfl, by decide, by decide, by decide⟩
theorem witness_EdgesAreTheQualifyingEdges :
    beforeRun.phase ≠ .run ∧ beforeRun.cfg.legal = true ∧ (∀ i ∈ twoBeats, isBeat i = true ∨ i = .nop)
      ∧ ∃ t es, runOps (.start :: (twoBeats ++ [.endRun])) beforeRun = .next (t, es) ∧ t.flags.cause = .none :=
  ⟨by decide, by decide, by decide, _, _, rfl, by decide⟩
theorem witness_RunDecodesItsBits :
    beforeRun.phase ≠ .run ∧ beforeRun.cfg.legal = true ∧ (∀ i ∈ twoBeats, isBeat i = true ∨ i = .nop)
      ∧ (∃ t es, runOps (.start :: twoBeats) beforeRun = .next (t, es) ∧ t.flags.any = false
        ∧ es.filterMap Event.bit? = [true]
        ∧ decodeBits [true] t.cfg.groupSize t.cfg.msbFirst t.cfg.asHex = .ok [.str ['0', 'x', '1']])
      ∧ ∃ t es, runOps (.start :: twoBeats) State.reset = .next (t, es) ∧ t.flags.any = false
        ∧ es.filterMap Event.bit? = [true]
        ∧ decodeBits [true] t.cfg.groupSize t.cfg.msbFirst t.cfg.asHex = .error .indiv :=
  ⟨by decide, by decide, by decide, ⟨_, _, rfl, by decide, by decide, rfl⟩, _, _, rfl, by decide, by decide, rfl⟩
theorem witness_CaptureEqualsThePipeline :
    beforeRun.phase ≠ .run ∧ beforeRun.cfg.legal = true
      ∧ ([.start, .smp2 0 3300, .nop, .smp2 3300 3300, .endRun, .nop].filter fun i => i ≠ .nop)
        = capture [0, 3300] [3300, 3300] := by decide
theorem witness_ObserverSeesOneResultPerRun :
    beforeRun.phase ≠ .run ∧ beforeRun.cfg.legal = true
      ∧ (∃ t es, runOps (capture [0] [0]) beforeRun = .next (t, es)) ∧ inverted.phase ≠ .run
      ∧ inverted.cfg.legal = false := ⟨by decide, by decide, ⟨_, _, rfl⟩, by decide, by decide⟩
theorem witness_RunsDoNotInfluenceEachOther :
    State.reset.phase ≠ .run ∧ ({ twoBits with phase := .done } : State).phase ≠ .run
      ∧ ({ twoBits with phase := .done } : State).cfg = State.reset.cfg
      ∧ ∃ t es, runOps (.start :: twoBeats) State.reset = .next (t, es) :=
  ⟨by decide, by decide, by decide, _, _, rfl⟩
theorem witness_ConfigSetsTheGivenRegisters : inverted.phase ≠ .run := by decide
theorem witness_SeveralBlocksShareNoState : ∃ ys, stepAt 1 [opened, mid, twoBits] = .next ys := ⟨_, rfl⟩
theorem witness_EveryStepKeepsTheInvariant : mid.Inv ∧ ∃ t, step mid = .next t := ⟨mid_inv, _, rfl⟩
theorem witness_EveryActionHasAnOutcome : mid.Inv ∧ mid.inputs ≠ [] := ⟨mid_inv, by decide⟩

end Sys2Proof.Tests
end

section
/-! PROOFS. 00_scope.md R6: a strictly monotone change of samples and thresholds commutes with every operation. Each
unit gets one commuting lemma; the order enters in the comparator, in the legality of a configuration and in the gate of
a sample beat, and nowhere else. -/

namespace Sys2Proof.Machine

/-! ## What the change touches -/

/-- The configuration registers with both thresholds replaced by their images, as `mapState` replaces them. -/
def mapCfg (f : SampleT → SampleT) (c : CfgRegs) : CfgRegs :=
  { c with thrLow := f c.thrLow, thrHigh := f c.thrHigh }

section
variable (f : SampleT → SampleT) (s : State)

@[simp] theorem mapState_cfg : (mapState f s).cfg = mapCfg f s.cfg := rfl
@[simp] theorem mapState_phase : (mapState f s).phase = s.phase := rfl
@[simp] theorem mapState_clk : (mapState f s).clk = s.clk := rfl
@[simp] theorem mapState_dat : (mapState f s).dat = s.dat := rfl
@[simp] theorem mapState_cnt : (mapState f s).cnt = s.cnt := rfl
@[simp] theorem mapState_flags : (mapState f s).flags = s.flags := rfl
@[simp] theorem mapState_cmp (ch : Chan) : (mapState f s).cmp ch = s.cmp ch := by cases ch <;> rfl

@[simp] theorem mapCfg_thrLow (c : CfgRegs) : (mapCfg f c).thrLow = f c.thrLow := rfl
@[simp] theorem mapCfg_thrHigh (c : CfgRegs) : (mapCfg f c).thrHigh = f c.thrHigh := rfl
@[simp] theorem mapCfg_groupSize (c : CfgRegs) : (mapCfg f c).groupSize = c.groupSize := rfl

@[simp] theorem quiet_mapState : (mapState f s).quiet = mapState f s.quiet := rfl
@[simp] theorem emit_mapState (e : Event) : (mapState f s).emit e = mapState f (s.emit e) := rfl
@[simp] theorem raise_mapState (e : ErrFlag) : (mapState f s).raise e = mapState f (s.raise e) := rfl
@[simp] theorem clearRun_mapState : (mapState f s).clearRun = mapState f s.clearRun := rfl

/-- A write of the mapped value gives the mapped registers. -/
theorem write_mapCfg (c : CfgRegs) (w : CfgWrite) :
    (mapCfg f c).write (mapCfgWrite f w) = (c.write w).map (mapCfg f) := by
  cases w <;> rfl

/-! ## The units that read no sample -/

@[simp] theorem edgeSeen_mapState (qc : Bool) : edgeSeen (mapState f s) qc = edgeSeen s qc := rfl

theorem edgStep_mapState (qc : Bool) : edgStep qc (mapState f s) = mapState f (edgStep qc s) := by
  rw [edgStep_eq, edgStep_eq]
  rfl

theorem grpStep_mapState (b : Bool) : grpStep b (mapState f s) = mapState f (grpStep b s) := by
  rw [grpStep_eq, grpStep_eq]
  rfl

theorem latStep_mapState (e qd : Bool) : latStep e qd (mapState f s) = mapState f (latStep e qd s) := by
  cases e with
  | false => rfl
  | true =>
    rw [latStep_true, latStep_true, ← grpStep_mapState]
    rfl

theorem latchBeat_mapState (qc qd : Bool) :
    latchBeat qc qd (mapState f s) = mapOutcome f (latchBeat qc qd s) := by
  by_cases h : (edgeSeen s qc && s.cfg.groupSize == 0) = true <;>
    simp [latchBeat, edgStep_mapState, latStep_mapState, h, mapOutcome]

/-- A paired beat after its comparators reads levels, not samples. -/
theorem gatedBeat_mapState : gatedBeat (mapState f s) = mapOutcome f (gatedBeat s) := by
  unfold gatedBeat
  cases ha : s.flags.any with
  | true => simp [ha, mapOutcome]
  | false =>
    cases hc : s.clk.hs.bit? with
    | none => simp [ha, hc, mapOutcome]
    | some qc =>
      cases hd : s.dat.hs.bit? with
      | none => simp [ha, hc, hd, mapOutcome]
      | some qd => simp [ha, hc, hd, latchBeat_mapState]

theorem execEndRun_mapState : execEndRun (mapState f s) = mapOutcome f (execEndRun s) := by
  unfold execEndRun
  by_cases hp : s.phase = .run
  · by_cases hi : (!s.flags.any && s.cnt != 0) = true <;> simp [hp, hi, mapOutcome] <;> rfl
  · simp [hp, mapOutcome]

theorem execCfgw_mapState (w : CfgWrite) :
    execCfgw (mapCfgWrite f w) (mapState f s) = mapOutcome f (execCfgw w s) := by
  unfold execCfgw
  rw [mapState_cfg, write_mapCfg]
  cases s.cfg.write w with
  | none => rfl
  | some c =>
    by_cases hp : s.phase = .run
    · simp [hp, mapOutcome]
    · simp only [Option.map_some, mapState_phase, hp, if_false]
      rfl

end

/-! ## Where the order is read -/

section
variable {f : SampleT → SampleT} (hf : StrictMono f)
include hf

theorem cmpNext_strictMono (lo hi v : SampleT) (r : CmpRegs) :
    cmpNext (f lo) (f hi) r (f v) = cmpNext lo hi r v := by
  simp only [cmpNext, cmpFirst, cmpLater, hf.le_iff_le]

theorem isAmbiguous_strictMono (lo hi v : SampleT) (r : CmpRegs) :
    isAmbiguous (f lo) (f hi) r (f v) = isAmbiguous lo hi r v := by
  simp only [isAmbiguous, cmpFirst, hf.le_iff_le]

theorem legal_mapCfg (c : CfgRegs) : (mapCfg f c).legal = c.legal := by
  rw [Bool.eq_iff_iff, CfgRegs.legal_iff, CfgRegs.legal_iff]
  simp [hf.le_iff_le]

theorem cmpStep_mapState (ch : Chan) (v : SampleT) (s : State) :
    cmpStep ch (f v) (mapState f s) = mapState f (cmpStep ch v s) := by
  rw [cmpStep_eq, cmpStep_eq]
  simp only [mapState_cfg, mapCfg_thrLow, mapCfg_thrHigh, mapState_cmp, cmpNext_strictMono hf,
    isAmbiguous_strictMono hf]
  cases ch <;> rfl

/-- A sample beat commutes with the change when what it does in `RUN` does. -/
theorem sampleBeat_mapState {body body' : State → Result} (s : State)
    (h : body' (mapState f s.quiet) = mapOutcome f (body s.quiet)) :
    sampleBeat (mapState f s) body' = mapOutcome f (sampleBeat s body) := by
  by_cases hp : s.phase = .run
  · by_cases hc : s.cfg.thrLow ≤ s.cfg.thrHigh
    · rw [sampleBeat_of_run body hp hc, sampleBeat_of_run (s := mapState f s) body' hp (hf.monotone hc),
        quiet_mapState, h]
    · rw [sampleBeat_of_inverted body hp hc,
        sampleBeat_of_inverted (s := mapState f s) body' hp (mt hf.le_iff_le.mp hc)]
      rfl
  · rw [sampleBeat_of_not_run body hp, sampleBeat_of_not_run (s := mapState f s) body' hp]
    rfl

theorem execSmp2_mapState (c d : SampleT) (s : State) :
    execSmp2 (f c) (f d) (mapState f s) = mapOutcome f (execSmp2 c d s) :=
  sampleBeat_mapState hf s (by rw [cmpStep_mapState hf, cmpStep_mapState hf, gatedBeat_mapState])

theorem execSmpc_mapState (c : SampleT) (s : State) :
    execSmpc (f c) (mapState f s) = mapOutcome f (execSmpc c s) :=
  sampleBeat_mapState hf s (by rw [cmpStep_mapState hf]; rfl)

theorem execSmpd_mapState (d : SampleT) (s : State) :
    execSmpd (f d) (mapState f s) = mapOutcome f (execSmpd d s) :=
  sampleBeat_mapState hf s (by rw [cmpStep_mapState hf]; rfl)

theorem execStart_mapState (s : State) : execStart (mapState f s) = mapOutcome f (execStart s) := by
  unfold execStart
  by_cases hp : s.phase = .run
  · simp [hp, mapOutcome]
  · cases hl : s.cfg.legal <;> simp [hp, hl, legal_mapCfg hf, mapOutcome] <;> rfl

end

/-- Settles O43: one commuting lemma per operation. -/
theorem onlyTheOrderOfSamplesMatters : Obligations.OnlyTheOrderOfSamplesMatters := by
  intro f hf i s
  cases i with
  | nop => rfl
  | start => exact execStart_mapState hf s
  | smp2 c d => exact execSmp2_mapState hf c d s
  | smpc c => exact execSmpc_mapState hf c s
  | smpd d => exact execSmpd_mapState hf d s
  | endRun => exact execEndRun_mapState f s
  | cfgw w => exact execCfgw_mapState f s w
  | rsvd => rfl

end Sys2Proof.Machine
end

section
/-! PROOFS. 10_state.md: what a step reads and leaves alone, the flags and events of every operation, and the invariant
of R34. That the actions to come are neither read nor written is one commuting lemma per operation; the rest is a case
analysis by `exec_cases`. -/

namespace Sys2Proof.Machine

/-! ## One step and the reset values -/

/-- A step takes the first action presented and performs it on the rest. -/
theorem step_cons {s : State} {x : Input} {rest : List Input} (h : s.inputs = x :: rest) :
    step s = perform (actionOf decode x) { s with inputs := rest } := by
  simp only [step, h]

/-- Every step that answers a next state has performed the first action presented. -/
theorem step_next {s t : State} (h : step s = .next t) :
    ∃ x rest, s.inputs = x :: rest ∧ perform (actionOf decode x) { s with inputs := rest } = .next t := by
  cases hi : s.inputs with
  | nil => simp [step, hi] at h
  | cons x rest => exact ⟨x, rest, rfl, step_cons hi ▸ h⟩

/-- Settles O6: the action of a word at `rst = 0`, and of an abstract operation, is that operation. -/
theorem stepExecutesThePresentedOperation : Obligations.StepExecutesThePresentedOperation :=
  fun _ _ => ⟨fun _ h => step_cons h, fun _ h => step_cons h⟩

theorem execStart_of_legal {s : State} (hp : s.phase ≠ .run) (hl : s.cfg.legal = true) :
    execStart s = .next { s.quiet.clearRun with phase := .run } := by
  simp [execStart, hp, hl]

theorem execStart_of_illegal {s : State} (hp : s.phase ≠ .run) (hl : s.cfg.legal = false) :
    execStart s = .next { s.quiet.clearRun.raise .cfg with phase := .done, events := [.fin .badConfig] } := by
  simp [execStart, hp, hl, State.emit]

@[simp] theorem Flags.get_clear (e : ErrFlag) : Flags.clear.get e = false := by cases e <;> rfl

/-- Settles O8: the table is the reset state's definition, and `START` clears the run state in both its outcomes. -/
theorem resetValuesAreTheTable : Obligations.ResetValuesAreTheTable := by
  refine ⟨⟨rfl, rfl, rfl, rfl, rfl, rfl, rfl, rfl, rfl, rfl, Flags.get_clear⟩, fun s hp => ?_⟩
  cases hl : s.cfg.legal with
  | true =>
    exact ⟨_, execStart_of_legal hp hl, rfl, rfl, rfl, rfl, rfl, rfl, rfl, rfl, rfl,
      fun _ => ⟨rfl, Flags.get_clear⟩, nofun⟩
  | false =>
    refine ⟨_, execStart_of_illegal hp hl, rfl, rfl, rfl, rfl, rfl, rfl, rfl, rfl, rfl, nofun,
      fun _ => ⟨rfl, fun e => ?_⟩⟩
    cases e <;> rfl

/-! ## The actions to come -/

/-- The state with other actions to come. -/
def State.withInputs (r : List Input) (s : State) : State := { s with inputs := r }

/-- An outcome with its next state, if it has one, changed. -/
def mapNext (g : State → State) : Result → Result
  | .next t => .next (g t)
  | .fault e => .fault e
  | .refused e => .refused e

theorem mapNext_ite (g : State → State) (p : Prop) [Decidable p] (a b : Result) :
    mapNext g (if p then a else b) = if p then mapNext g a else mapNext g b :=
  apply_ite (mapNext g) p a b

section
variable (r : List Input) (s : State)

@[simp] theorem withInputs_cfg : (s.withInputs r).cfg = s.cfg := rfl
@[simp] theorem withInputs_clk : (s.withInputs r).clk = s.clk := rfl
@[simp] theorem withInputs_dat : (s.withInputs r).dat = s.dat := rfl
@[simp] theorem withInputs_cnt : (s.withInputs r).cnt = s.cnt := rfl
@[simp] theorem withInputs_flags : (s.withInputs r).flags = s.flags := rfl

theorem cmpStep_withInputs (ch : Chan) (v : SampleT) :
    cmpStep ch v (s.withInputs r) = (cmpStep ch v s).withInputs r := by
  rw [cmpStep_eq, cmpStep_eq]
  cases ch <;> rfl

theorem latStep_edgStep_withInputs (e qc qd : Bool) :
    latStep e qd (edgStep qc (s.withInputs r)) = (latStep e qd (edgStep qc s)).withInputs r := by
  cases e <;> simp only [latStep_true, latStep_false, grpStep_eq, edgStep_eq] <;> rfl

theorem latchBeat_withInputs (qc qd : Bool) :
    latchBeat qc qd (s.withInputs r) = mapNext (State.withInputs r) (latchBeat qc qd s) := by
  simp only [latchBeat, mapNext_ite, latStep_edgStep_withInputs]
  rfl

theorem gatedBeat_withInputs :
    gatedBeat (s.withInputs r) = mapNext (State.withInputs r) (gatedBeat s) := by
  unfold gatedBeat
  rw [mapNext_ite, withInputs_clk, withInputs_dat]
  refine if_congr Iff.rfl rfl ?_
  cases s.clk.hs.bit? with
  | none => rfl
  | some qc =>
    cases s.dat.hs.bit? with
    | none => rfl
    | some qd => exact latchBeat_withInputs r s qc qd

/-- A sample beat reads no action to come when what it does in `RUN` reads none. -/
theorem sampleBeat_withInputs {body : State → Result}
    (h : ∀ t, body (State.withInputs r t) = mapNext (State.withInputs r) (body t)) :
    sampleBeat (s.withInputs r) body = mapNext (State.withInputs r) (sampleBeat s body) := by
  simp only [sampleBeat, mapNext_ite, ← h]
  rfl

theorem execSmp2_withInputs (c d : SampleT) :
    execSmp2 c d (s.withInputs r) = mapNext (State.withInputs r) (execSmp2 c d s) :=
  sampleBeat_withInputs r s fun t => by rw [cmpStep_withInputs, cmpStep_withInputs, gatedBeat_withInputs]

theorem execSmpc_withInputs (c : SampleT) :
    execSmpc c (s.withInputs r) = mapNext (State.withInputs r) (execSmpc c s) :=
  sampleBeat_withInputs r s fun t => by rw [cmpStep_withInputs]; rfl

theorem execSmpd_withInputs (d : SampleT) :
    execSmpd d (s.withInputs r) = mapNext (State.withInputs r) (execSmpd d s) :=
  sampleBeat_withInputs r s fun t => by rw [cmpStep_withInputs]; rfl

theorem execStart_withInputs : execStart (s.withInputs r) = mapNext (State.withInputs r) (execStart s) := by
  simp only [execStart, mapNext_ite]
  rfl

theorem execEndRun_withInputs : execEndRun (s.withInputs r) = mapNext (State.withInputs r) (execEndRun s) := by
  unfold execEndRun
  rw [mapNext_ite, withInputs_flags, withInputs_cnt]
  refine if_congr Iff.rfl rfl ?_
  cases !s.flags.any && s.cnt != 0 <;> rfl

theorem execCfgw_withInputs (w : CfgWrite) :
    execCfgw w (s.withInputs r) = mapNext (State.withInputs r) (execCfgw w s) := by
  unfold execCfgw
  rw [withInputs_cfg]
  cases s.cfg.write w with
  | none => rfl
  | some c =>
    simp only [mapNext_ite]
    rfl

/-- No operation reads or writes the actions to come. -/
theorem exec_withInputs (i : Instr) :
    exec i (s.withInputs r) = mapNext (State.withInputs r) (exec i s) := by
  cases i with
  | nop => rfl
  | start => exact execStart_withInputs r s
  | smp2 c d => exact execSmp2_withInputs r s c d
  | smpc c => exact execSmpc_withInputs r s c
  | smpd d => exact execSmpd_withInputs r s d
  | endRun => exact execEndRun_withInputs r s
  | cfgw w => exact execCfgw_withInputs r s w
  | rsvd => rfl

end

/-- Stepping through presented operations is executing them with nothing else to come. -/
theorem runSteps_presenting (ops : List Instr) (s : State) :
    runSteps ops.length (s.presenting ops) = runOps ops (s.withInputs []) := by
  induction ops generalizing s with
  | nil => rfl
  | cons i ops ih =>
    have hstep : step (s.presenting (i :: ops))
        = mapNext (State.withInputs (ops.map .op)) (exec i (s.withInputs [])) :=
      (step_cons (x := .op i) rfl).trans (exec_withInputs (ops.map .op) (s.withInputs []) i)
    have hkeep := exec_withInputs [] (s.withInputs []) i
    simp only [List.length_cons, runSteps, runOps, hstep]
    cases hx : exec i (s.withInputs []) with
    | fault e => rfl
    | refused e => rfl
    | next t =>
      have ht : t = t.withInputs [] := by
        rw [hx] at hkeep
        exact Host.Outcome.next.inj (hx.symm.trans hkeep)
      have hrest : runSteps ops.length (t.presenting ops) = runOps ops t := by rw [ih t, ← ht]
      simp only [mapNext, ← hrest]
      rfl

/-- Settles O10: the two traces are equal, by induction on the operations. -/
theorem steppingIsExecutingInOrder : Obligations.SteppingIsExecutingInOrder :=
  fun ops s t es => by rw [runSteps_presenting ops s]; rfl

/-! ## Flags -/

theorem Flags.le_refl (f : Flags) : f.le f := fun _ h => h

theorem Flags.le_trans {f g h : Flags} (hfg : f.le g) (hgh : g.le h) : f.le h := fun e he => hgh e (hfg e he)

theorem Flags.le_set (f : Flags) (e : ErrFlag) : f.le (f.set e) := fun e' h => by simp [h]

theorem cmpStep_flags_le (ch : Chan) (v : SampleT) (s : State) : s.flags.le (cmpStep ch v s).flags := by
  rw [cmpStep_flags]
  split
  · exact Flags.le_set _ _
  · exact Flags.le_refl _

theorem afterComparators_flags_le (c d : SampleT) (s : State) : s.flags.le (afterComparators c d s).flags :=
  Flags.le_trans (cmpStep_flags_le .clk c s.quiet) (cmpStep_flags_le .dat d _)

/-- Settles O23: every case of `exec` but the two of a `START` outside `RUN` keeps the flags or sets one. -/
theorem flagsAreSticky : Obligations.FlagsAreSticky := by
  intro i s t h hs
  cases exec_cases h with
  | idle => exact Flags.le_refl _
  | protocol => exact Flags.le_set _ _
  | opened _ hp => exact absurd (hs rfl) hp
  | notOpened _ hp => exact absurd (hs rfl) hp
  | closed _ _ f hf =>
    subst hf
    split
    · exact Flags.le_set _ _
    · exact Flags.le_refl _
  | written => exact Flags.le_refl _
  | clockOnly c => exact Flags.le_trans (cmpStep_flags_le .clk c s.quiet) (Flags.le_set _ _)
  | dataOnly d => exact Flags.le_trans (cmpStep_flags_le .dat d s.quiet) (Flags.le_set _ _)
  | gateClosed c d => exact afterComparators_flags_le c d s
  | noEdge c d => exact afterComparators_flags_le c d s
  | edge c d => exact afterComparators_flags_le c d s

/-- `fault_any` in terms of the single flags. -/
theorem Flags.any_iff (f : Flags) : f.any = true ↔ ∃ e, f.get e = true := by
  constructor
  · intro h
    simp only [Flags.any, Bool.or_eq_true] at h
    obtain ((((h | h) | h) | h) | h) | h := h
    exacts [⟨.ambigClk, h⟩, ⟨.ambigDat, h⟩, ⟨.len, h⟩, ⟨.indiv, h⟩, ⟨.cfg, h⟩, ⟨.proto, h⟩]
  · rintro ⟨e, h⟩
    cases e <;> simp_all [Flags.any, Flags.get]

theorem Flags.cause_code (f : Flags) :
    f.cause.code = if f.proto then 6#3 else if f.cfg then 5#3 else if f.ambigClk then 1#3
      else if f.ambigDat then 2#3 else if f.len then 3#3 else if f.indiv then 4#3 else 0#3 := by
  unfold Flags.cause
  simp only [apply_ite Cause.code]
  rfl

/-- Code 7 is never produced (60_exceptions.md R161). -/
theorem Cause.code_ne_seven (c : Cause) : c.code ≠ 7#3 := by cases c <;> decide

/-- `flags` as a word, its bits from the top down. -/
theorem Flags.bits_eq (f : Flags) : f.bits =
    (((((BitVec.ofBool f.proto).concat f.cfg).concat f.indiv).concat f.len).concat f.ambigDat).concat f.ambigClk :=
  rfl

theorem Flags.getLsbD_bits (f : Flags) (e : ErrFlag) : f.bits.getLsbD e.index = f.get e := by
  rw [Flags.bits_eq]
  cases e <;> simp [ErrFlag.index, Flags.get, BitVec.getElem_concat]

/-- `STATUS` is `flags` with the two phase bits below (10_state.md R27). -/
theorem State.status_eq (s : State) : s.status = (s.flags.bits.concat s.isDone).concat s.busy := rfl

theorem State.getLsbD_status_flag (s : State) (e : ErrFlag) :
    s.status.getLsbD (2 + e.index) = s.flags.get e := by
  rw [State.status_eq, Nat.add_comm 2 e.index, BitVec.getLsbD_concat_succ, BitVec.getLsbD_concat_succ,
    Flags.getLsbD_bits]

/-- Settles O31, the signals of the flags one by one and `STATUS` bit by bit. -/
theorem statusSignalsFollowTheFlags : Obligations.StatusSignalsFollowTheFlags := by
  refine ⟨fun f => ⟨f.any_iff, f.cause_code, f.cause.code_ne_seven⟩,
    fun s => ⟨beq_iff_eq, beq_iff_eq, ?_, ?_, s.getLsbD_status_flag⟩⟩
  · rw [State.status_eq, BitVec.getLsbD_concat_zero]
  · rw [State.status_eq, BitVec.getLsbD_concat_succ, BitVec.getLsbD_concat_zero]

/-! ## Events -/

theorem eventsInOrder_nil : eventsInOrder [] := by simp [eventsInOrder, hasRank]

theorem eventsInOrder_fin (c : Cause) : eventsInOrder [.fin c] := by simp [eventsInOrder, hasRank, Event.rank]

/-- The levels of the channels that have one, clock before data. -/
theorem eventsInOrder_digs (c d : Option Bool) :
    eventsInOrder ((c.map (Event.dig .clk)).toList ++ (d.map (Event.dig .dat)).toList) := by
  cases c <;> cases d <;> simp [eventsInOrder, hasRank, Event.rank]

/-- A latched bit behind both levels and its edge, with the events of its group. -/
theorem eventsInOrder_latched (qc qd b : Bool) (u : State) :
    eventsInOrder ([.dig .clk qc, .dig .dat qd] ++ .edge :: .bit b :: groupEvents b u) := by
  by_cases hg : u.cnt + 1 = u.cfg.groupSize
  · cases hx : u.cfg.asHex <;> simp [groupEvents, hg, hx, eventsInOrder, hasRank, Event.rank]
  · simp [groupEvents, hg, eventsInOrder, hasRank, Event.rank]

/-- A paired beat shows the new levels of both channels. -/
theorem afterComparators_events (c d : SampleT) (s : State) : (afterComparators c d s).events
    = ((afterComparators c d s).clk.hs.bit?.map (Event.dig .clk)).toList
      ++ ((afterComparators c d s).dat.hs.bit?.map (Event.dig .dat)).toList := by
  simp [afterComparators, cmpStep_events]

/-- Settles O25: every case of `exec` emits nothing, one `FIN`, levels alone, or a latched bit behind its levels. -/
theorem eventsComeInPipelineOrder : Obligations.EventsComeInPipelineOrder := by
  intro i s t h
  have hdigs (c d) : eventsInOrder (afterComparators c d s).events := by
    rw [afterComparators_events]
    exact eventsInOrder_digs _ _
  cases exec_cases h with
  | idle => exact eventsInOrder_nil
  | protocol => exact eventsInOrder_nil
  | opened => exact eventsInOrder_nil
  | notOpened => exact eventsInOrder_fin _
  | closed => exact eventsInOrder_fin _
  | written => exact eventsInOrder_nil
  | clockOnly c =>
    rw [State.raise_events, cmpStep_events]
    simpa using eventsInOrder_digs (cmpNext s.cfg.thrLow s.cfg.thrHigh s.clk c).bit? none
  | dataOnly d =>
    rw [State.raise_events, cmpStep_events]
    exact eventsInOrder_digs none _
  | gateClosed c d => exact hdigs c d
  | noEdge c d => exact hdigs c d
  | edge c d _ qc qd _ _ _ hc hd =>
    have he : (afterComparators c d s).events = [.dig .clk qc, .dig .dat qd] := by
      rw [afterComparators_events, hc, hd]
      rfl
    simp only [edgeBeat, he]
    exact eventsInOrder_latched qc qd qd _

/-! ## The invariant: states outside the beats -/

/-- The events of a step and the actions to come are no part of the invariant. -/
theorem State.Inv.withPorts {s : State} (h : s.Inv) (es : List Event) (r : List Input) :
    ({ s with events := es, inputs := r } : State).Inv :=
  { h with }

theorem State.Inv.quiet {s : State} (h : s.Inv) : s.quiet.Inv := h.withPorts [] s.inputs

/-- The invariant of a state whose run state is cleared: after a reset, and after a `START` that opens or refuses the
run. -/
theorem inv_clearRun (s : State) {p : Phase} {f : Flags} {es : List Event}
    (hf : f = .clear ∨ (f = Flags.clear.set .cfg ∧ p = .done)) (hl : p = .run → s.cfg.legal = true) :
    ({ s.clearRun with phase := p, flags := f, events := es } : State).Inv := by
  have ⟨hac, had, hind⟩ : f.ambigClk = false ∧ f.ambigDat = false ∧ f.indiv = false := by
    obtain rfl | ⟨rfl, -⟩ := hf <;> exact ⟨rfl, rfl, rfl⟩
  have hfit {g : Nat} (hg : 1 ≤ g) :
      ({ s.clearRun with phase := p, flags := f, events := es } : State).groupsFit g :=
    ⟨hg, by simp⟩
  constructor
  case shBound => simp
  case groups => exact ⟨1, hfit le_rfl⟩
  case groupsRun => exact fun hp => hfit ((CfgRegs.legal_iff _).mp (hl hp)).2
  case legalRun => exact hl
  case cprevLevel => exact nofun
  case undetClk => simp [CmpRegs.reset]
  case undetDat => simp [CmpRegs.reset]
  case ambigClk => simp [hac]
  case ambigDat => simp [had]
  case aligned => exact fun _ => rfl
  case cprevSeen => exact nofun
  case bitsBound => simp
  case bitsHalf => simp
  case bitsArmed => simp [State.armed, EdgRegs.reset]
  case idle =>
    rintro ⟨⟩
    obtain hf | ⟨-, ⟨⟩⟩ := hf
    exact ⟨rfl, rfl, rfl, rfl, rfl, rfl, rfl, rfl, .inl hf⟩
  case badConfig =>
    obtain rfl | ⟨-, rfl⟩ := hf
    · exact nofun
    · exact fun _ => ⟨rfl, rfl, rfl⟩
  case indivDone => simp [hind]

/-- Settles O54: the reset state is a cleared one in `IDLE`. -/
theorem resetMeetsTheInvariant : Obligations.ResetMeetsTheInvariant :=
  inv_clearRun State.reset (.inl rfl) nofun

/-- A protocol fault keeps the invariant: it is the one flag that may be set in `IDLE`. -/
theorem State.Inv.raise_proto {s : State} (h : s.Inv) : (s.raise .proto).Inv where
  __ := h
  cprevLevel ha := by simp at ha
  aligned ha := by simp at ha
  idle hp := by
    obtain ⟨hclk, hdat, hedg, hlbit, hsh, hcnt, hbits, hvals, hf⟩ := h.idle hp
    refine ⟨hclk, hdat, hedg, hlbit, hsh, hcnt, hbits, hvals, .inr ?_⟩
    obtain hf | hf := hf <;> simp [hf, Flags.set]

/-- Closing a run keeps the invariant, with `ERR_INDIV` raised or not. -/
theorem State.Inv.close {s : State} (h : s.Inv) {f : Flags} (hf : f = s.flags ∨ f = s.flags.set .indiv)
    (es : List Event) : ({ s with phase := .done, flags := f, events := es } : State).Inv := by
  have ⟨hac, had, hcfg⟩ : f.ambigClk = s.flags.ambigClk ∧ f.ambigDat = s.flags.ambigDat ∧ f.cfg = s.flags.cfg := by
    obtain rfl | rfl := hf <;> exact ⟨rfl, rfl, rfl⟩
  have hany (ha : f.any = false) : s.flags.any = false := by
    obtain rfl | rfl := hf
    · exact ha
    · simp at ha
  exact { h with
    groupsRun := nofun
    legalRun := nofun
    cprevLevel := fun ha => h.cprevLevel (hany ha)
    undetClk := by simpa only [hac] using h.undetClk
    undetDat := by simpa only [had] using h.undetDat
    ambigClk := by simpa only [hac] using h.ambigClk
    ambigDat := by simpa only [had] using h.ambigDat
    aligned := fun ha => h.aligned (hany ha)
    bitsArmed := nofun
    idle := nofun
    badConfig := fun hc => ⟨rfl, (h.badConfig (hcfg ▸ hc)).2⟩
    indivDone := fun _ => rfl }

/-- A write to a configuration register outside a run keeps the invariant. -/
theorem State.Inv.write {s : State} (h : s.Inv) (hp : s.phase ≠ .run) (c : CfgRegs) :
    ({ s with cfg := c } : State).Inv :=
  { h with
    groupsRun := fun hr => absurd hr hp
    legalRun := fun hr => absurd hr hp
    bitsArmed := fun hr => absurd hr hp }

/-! ## The invariant: comparators -/

/-- R34 items 4 and 5 for one channel, `a` its ambiguity flag. -/
structure CmpRegs.Fits (r : CmpRegs) (a : Bool) : Prop where
  undet : r.hs = .undet ↔ (r.n = 0 ∨ a = true)
  counted : a = true → 0 < r.n

/-- A sample keeps them: a first one is `UNDET` exactly when it is ambiguous, a later one leaves `UNDET` alone. -/
theorem CmpRegs.Fits.next {r : CmpRegs} {a : Bool} (h : r.Fits a) (lo hi v : SampleT) :
    CmpRegs.Fits ⟨cmpNext lo hi r v, r.n + 1⟩ (a || isAmbiguous lo hi r v) := by
  refine ⟨?_, fun _ => Nat.succ_pos _⟩
  by_cases hn : r.n = 0
  · have ha : a = false := by
      cases a with
      | false => rfl
      | true => exact absurd hn (h.counted rfl).ne'
    simp [ha, hn, cmpNext, isAmbiguous]
  · have hlater : cmpLater lo hi r.hs v = .undet ↔ r.hs = .undet := by
      cases hr : r.hs <;> simp only [cmpLater] <;> split_ifs <;> simp_all
    simp [hn, cmpNext, isAmbiguous, hlater, h.undet]

section
variable (ch : Chan) (v : SampleT) (s : State)

theorem cmpStep_cmp : (cmpStep ch v s).cmp ch
    = ⟨cmpNext s.cfg.thrLow s.cfg.thrHigh (s.cmp ch) v, (s.cmp ch).n + 1⟩ := by
  cases ch <;> simp

theorem cmpStep_cmp_of_ne {ch' : Chan} (h : ch' ≠ ch) : (cmpStep ch v s).cmp ch' = s.cmp ch' := by
  cases ch <;> cases ch' <;> simp_all

theorem cmpStep_flags_get (e : ErrFlag) : (cmpStep ch v s).flags.get e
    = (s.flags.get e || (isAmbiguous s.cfg.thrLow s.cfg.thrHigh (s.cmp ch) v && ch.ambigFlag == e)) := by
  rw [cmpStep_flags]
  cases isAmbiguous s.cfg.thrLow s.cfg.thrHigh (s.cmp ch) v <;> simp

end

/-- The two ambiguity flags differ. -/
theorem Chan.ambigFlag_ne {ch ch' : Chan} (h : ch ≠ ch') : ch.ambigFlag ≠ ch'.ambigFlag := by
  cases ch <;> cases ch' <;> simp_all [Chan.ambigFlag]

/-- What a sample beat taken in `s` leaves at the front of the block in `t`: configuration and phase stand, the counters
of the channels only rise, and each channel keeps what the invariant says of it. -/
structure Sampled (s t : State) : Prop where
  cfg : t.cfg = s.cfg
  phase : t.phase = s.phase
  indivFlag : t.flags.get .indiv = s.flags.get .indiv
  cfgFlag : t.flags.get .cfg = s.flags.get .cfg
  count : ∀ ch, (s.cmp ch).n ≤ (t.cmp ch).n
  fits : ∀ ch, (t.cmp ch).Fits (t.flags.get ch.ambigFlag)

/-- Everything behind the comparators stands. -/
structure Held (s t : State) : Prop where
  edg : t.edg = s.edg
  sh : t.sh = s.sh
  cnt : t.cnt = s.cnt
  nBits : t.nBits = s.nBits
  nVals : t.nVals = s.nVals

namespace Held
variable {s t : State} (hh : Held s t)
include hh

theorem sh_lt (h : s.Inv) : t.sh < 2 ^ t.cnt := by
  rw [hh.sh, hh.cnt]
  exact h.shBound

theorem groupsFit (h : s.Inv) (hp : s.phase = .run) : t.groupsFit s.cfg.groupSize := by
  simpa only [State.groupsFit, hh.cnt, hh.nBits, hh.nVals] using h.groupsRun hp

theorem armed (hc : t.cfg = s.cfg) : t.armed = s.armed := by
  simp only [State.armed, hh.edg, hc]

end Held

theorem State.Inv.sampled_quiet {s : State} (h : s.Inv) : Sampled s s.quiet where
  cfg := rfl
  phase := rfl
  indivFlag := rfl
  cfgFlag := rfl
  count ch := by simp
  fits
    | .clk => ⟨h.undetClk, h.ambigClk⟩
    | .dat => ⟨h.undetDat, h.ambigDat⟩

theorem Sampled.raise_len {s t : State} (h : Sampled s t) : Sampled s (t.raise .len) where
  __ := h
  count ch := by simpa using h.count ch
  fits
    | .clk => h.fits .clk
    | .dat => h.fits .dat

theorem Sampled.cmpStep {s t : State} (h : Sampled s t) (ch : Chan) (v : SampleT) :
    Sampled s (cmpStep ch v t) where
  cfg := (cmpStep_cfg ch v t).trans h.cfg
  phase := (cmpStep_phase ch v t).trans h.phase
  indivFlag := by
    rw [cmpStep_flags_get, ← h.indivFlag]
    cases ch <;> simp [Chan.ambigFlag]
  cfgFlag := by
    rw [cmpStep_flags_get, ← h.cfgFlag]
    cases ch <;> simp [Chan.ambigFlag]
  count ch' := by
    by_cases hc : ch' = ch
    · subst hc
      rw [cmpStep_cmp]
      exact Nat.le_succ_of_le (h.count ch')
    · rw [cmpStep_cmp_of_ne ch v t hc]
      exact h.count ch'
  fits ch' := by
    rw [cmpStep_flags_get]
    by_cases hc : ch' = ch
    · subst hc
      rw [cmpStep_cmp]
      simpa using (h.fits ch').next t.cfg.thrLow t.cfg.thrHigh v
    · rw [cmpStep_cmp_of_ne ch v t hc, beq_false_of_ne (Chan.ambigFlag_ne (Ne.symm hc)), Bool.and_false,
        Bool.or_false]
      exact h.fits ch'

theorem State.Inv.sampled_afterComparators {s : State} (h : s.Inv) (c d : SampleT) :
    Sampled s (afterComparators c d s) :=
  (h.sampled_quiet.cmpStep .clk c).cmpStep .dat d

theorem held_afterComparators (c d : SampleT) (s : State) : Held s (afterComparators c d s) := by
  constructor <;> simp [afterComparators]

@[simp] theorem afterComparators_clk_n (c d : SampleT) (s : State) :
    (afterComparators c d s).clk.n = s.clk.n + 1 := by
  simp [afterComparators]

@[simp] theorem afterComparators_dat_n (c d : SampleT) (s : State) :
    (afterComparators c d s).dat.n = s.dat.n + 1 := by
  simp [afterComparators]

/-! ## The invariant: sample beats -/

/-- The invariant after a sample beat, from what the beat does at the front (`Sampled`) and the items of R34 that speak
of the registers behind the comparators. -/
theorem Sampled.inv {s t : State} (ht : Sampled s t) (h : s.Inv) (hp : s.phase = .run) (hsh : t.sh < 2 ^ t.cnt)
    (hg : t.groupsFit s.cfg.groupSize) (hb : 2 * t.nBits + t.armed.toNat ≤ min t.clk.n t.dat.n)
    (hseen : t.edg.cprevValid = true → 0 < t.clk.n ∧ 0 < t.dat.n)
    (hopen : t.flags.any = false →
      t.clk.n = t.dat.n ∧ (t.edg.cprevValid = true → t.clk.hs.bit? = some t.edg.cprev)) : t.Inv where
  shBound := hsh
  groups := ⟨_, hg⟩
  groupsRun _ := ht.cfg ▸ hg
  legalRun _ := ht.cfg ▸ h.legalRun hp
  cprevLevel ha := (hopen ha).2
  undetClk := (ht.fits .clk).undet
  undetDat := (ht.fits .dat).undet
  ambigClk := (ht.fits .clk).counted
  ambigDat := (ht.fits .dat).counted
  aligned ha := (hopen ha).1
  cprevSeen := hseen
  bitsBound := by omega
  bitsHalf := by omega
  bitsArmed _ := hb
  idle hi := by simp [ht.phase, hp] at hi
  badConfig hc := by
    have := (h.badConfig (ht.cfgFlag.symm.trans hc)).1
    simp [hp] at this
  indivDone hi := by
    have := h.indivDone (ht.indivFlag.symm.trans hi)
    simp [hp] at this

/-- With a flag set nothing behind the comparators moves, and only the counters rise. -/
theorem Sampled.inv_of_flag {s t : State} (ht : Sampled s t) (hh : Held s t) (h : s.Inv) (hp : s.phase = .run)
    (ha : t.flags.any = true) : t.Inv := by
  have hclk : s.clk.n ≤ t.clk.n := ht.count .clk
  have hdat : s.dat.n ≤ t.dat.n := ht.count .dat
  refine ht.inv h hp (hh.sh_lt h) (hh.groupsFit h hp) ?_ ?_ ?_
  · have := h.bitsArmed hp
    rw [hh.nBits, hh.armed ht.cfg]
    omega
  · rw [hh.edg]
    exact fun hv => (h.cprevSeen hv).imp (fun hc => by omega) (fun hd => by omega)
  · simp [ha]

/-- A qualifying edge starts from an armed detector and ends at the level that `RISING_EDGE` selects. -/
theorem edgeSeen_iff (s : State) (qc : Bool) :
    edgeSeen s qc = true ↔ s.armed = true ∧ qc = s.cfg.risingEdge := by
  unfold edgeSeen edgeQ State.armed
  cases s.edg.cprevValid <;> cases s.edg.cprev <;> cases s.cfg.risingEdge <;> cases qc <;> decide

/-- `SHIFT_IN` adds one bit to the partial value (43_bit_shifter.md R107). -/
theorem shiftIn_lt {sh cnt : Nat} (h : sh < 2 ^ cnt) (m b : Bool) : shiftIn m sh cnt b < 2 ^ (cnt + 1) := by
  have hb := b.toNat_le
  have hmul : b.toNat * 2 ^ cnt ≤ 1 * 2 ^ cnt := Nat.mul_le_mul_right _ hb
  rw [shiftIn_eq m b h, Nat.pow_succ]
  split <;> omega

/-- A latched bit keeps the partial value below `2^cnt`. -/
theorem edgeBeat_sh_lt {u : State} (h : u.sh < 2 ^ u.cnt) (qc qd : Bool) :
    (edgeBeat qc qd u).sh < 2 ^ (edgeBeat qc qd u).cnt := by
  by_cases hg : u.cnt + 1 = u.cfg.groupSize
  · simp [edgeBeat, hg]
  · simpa [edgeBeat, hg] using shiftIn_lt h _ _

/-- A latched bit keeps the count of bits and groups. -/
theorem edgeBeat_groupsFit {u : State} (h : u.groupsFit u.cfg.groupSize) (qc qd : Bool) :
    (edgeBeat qc qd u).groupsFit u.cfg.groupSize := by
  obtain ⟨hlt, hbits⟩ := h
  by_cases hg : u.cnt + 1 = u.cfg.groupSize
  · simp only [State.groupsFit, edgeBeat, hg, if_true, Nat.succ_mul]
    omega
  · simp only [State.groupsFit, edgeBeat, hg, if_false]
    omega

theorem Flags.any_eq_false_of_le {f g : Flags} (h : f.le g) (hg : g.any = false) : f.any = false := by
  by_contra hf
  obtain ⟨e, he⟩ := f.any_iff.mp (by simpa using hf)
  simp [g.any_iff.mpr ⟨e, h e he⟩] at hg

/-- A paired beat with the gate open: the edge detector now holds the level of the clock, and the bits so far fit into
the beats so far. -/
theorem State.Inv.openBeat {s t : State} {c d : SampleT} {qc : Bool} (h : s.Inv) (hp : s.phase = .run)
    (ha : (afterComparators c d s).flags.any = false) (hc : (afterComparators c d s).clk.hs.bit? = some qc)
    (ht : Sampled s t) (hclk : t.clk = (afterComparators c d s).clk) (hdat : t.dat = (afterComparators c d s).dat)
    (hedg : t.edg = ⟨qc, true⟩) (hsh : t.sh < 2 ^ t.cnt) (hg : t.groupsFit s.cfg.groupSize)
    (hb : 2 * t.nBits + t.armed.toNat ≤ min s.clk.n s.dat.n + 1) : t.Inv := by
  have halign := h.aligned (Flags.any_eq_false_of_le (afterComparators_flags_le c d s) ha)
  refine ht.inv h hp hsh hg ?_ ?_ ?_ <;> rw [hclk]
  · simp only [hdat, afterComparators_clk_n, afterComparators_dat_n]
    omega
  · simp [hdat]
  · simp [hdat, halign, hc, hedg]

/-- Every operation keeps the invariant. -/
theorem State.Inv.exec {i : Instr} {s t : State} (h : s.Inv) (hx : exec i s = .next t) : t.Inv := by
  cases exec_cases hx with
  | idle => exact h.quiet
  | protocol => exact h.quiet.raise_proto
  | opened _ hp hl => exact inv_clearRun s.quiet (.inl rfl) fun _ => hl
  | notOpened => exact inv_clearRun s.quiet (.inr ⟨rfl, rfl⟩) nofun
  | closed _ hp f hf =>
    refine h.close ?_ _
    rw [hf]
    exact (ite_eq_or_eq _ _ _).symm
  | written _ _ k hp => exact h.quiet.write hp k
  | clockOnly c _ hp =>
    exact (h.sampled_quiet.cmpStep .clk c).raise_len.inv_of_flag (by constructor <;> simp) h hp (by simp)
  | dataOnly d _ hp =>
    exact (h.sampled_quiet.cmpStep .dat d).raise_len.inv_of_flag (by constructor <;> simp) h hp (by simp)
  | gateClosed c d _ hp _ ha =>
    exact (h.sampled_afterComparators c d).inv_of_flag (held_afterComparators c d s) h hp ha
  | noEdge c d _ qc qd hp _ ha hc =>
    have ht := h.sampled_afterComparators c d
    have hh := held_afterComparators c d s
    refine h.openBeat hp ha hc { ht with } rfl rfl rfl (hh.sh_lt h) (hh.groupsFit h hp) ?_
    refine (Nat.add_le_add_left (Bool.toNat_le _) _).trans ?_
    simpa [hh.nBits] using h.bitsHalf
  | edge c d _ qc qd hp _ ha hc _ he =>
    have ht := h.sampled_afterComparators c d
    have hh := held_afterComparators c d s
    have hg := hh.groupsFit h hp
    rw [← ht.cfg] at hg
    refine h.openBeat hp ha hc { ht with } rfl rfl rfl (edgeBeat_sh_lt (hh.sh_lt h) qc qd)
      (ht.cfg ▸ edgeBeat_groupsFit hg qc qd) ?_
    obtain ⟨harmed, hq⟩ := (edgeSeen_iff _ _).mp he
    have hbefore := h.bitsArmed hp
    rw [← hh.armed ht.cfg, harmed, Bool.toNat_true] at hbefore
    have hafter : (edgeBeat qc qd (afterComparators c d s)).armed = false := by
      simp [State.armed, edgeBeat, hq]
    rw [hafter, Bool.toNat_false]
    simp only [edgeBeat, hh.nBits]
    omega

theorem State.Inv.perform {a : Action} {s t : State} (h : s.Inv) (hx : perform a s = .next t) : t.Inv := by
  cases a with
  | reset =>
    cases hx
    exact resetMeetsTheInvariant.withPorts [] s.inputs
  | op i => exact h.exec hx

/-- Settles O55: a step performs one action on a state that differs in the actions to come alone. -/
theorem everyStepKeepsTheInvariant : Obligations.EveryStepKeepsTheInvariant := by
  intro s t h hstep
  obtain ⟨x, rest, -, hx⟩ := step_next hstep
  exact (h.withPorts s.events rest).perform hx

end Sys2Proof.Machine
end

section
/-! PROOFS. 20_memory.md R49: a step of a row of blocks replaces one entry of the row, and the replacement depends on that
entry alone. -/

namespace Sys2Proof.Machine

/-- A step of block `k` writes entry `k` of the row, with the step of the block that stood there. -/
theorem stepAt_next {k : Nat} {xs ys : List State} (h : stepAt k xs = .next ys) :
    ∃ s t, xs[k]? = some s ∧ step s = .next t ∧ ys = xs.set k t := by
  induction k, xs using stepAt.induct generalizing ys with
  | case1 k => simp [stepAt] at h
  | case2 s rest t ht =>
    simp only [stepAt, ht, Host.Outcome.next.injEq] at h
    exact ⟨s, t, rfl, ht, h.symm⟩
  | case3 s rest r hr | case4 s rest r hr => simp [stepAt, hr] at h
  | case5 k s rest ts hts ih =>
    simp only [stepAt, hts, Host.Outcome.next.injEq] at h
    obtain ⟨u, t, hu, ht, rfl⟩ := ih hts
    exact ⟨u, t, hu, ht, h.symm⟩
  | case6 k s rest r hr ih | case7 k s rest r hr ih => simp [stepAt, hr] at h

/-- Settles O53: a list with one entry replaced keeps its length and its other entries. -/
theorem severalBlocksShareNoState : Obligations.SeveralBlocksShareNoState := by
  intro k xs ys h
  obtain ⟨s, t, hs, ht, rfl⟩ := stepAt_next h
  obtain ⟨hk, -⟩ := List.getElem?_eq_some_iff.mp hs
  exact ⟨List.length_set, fun j hj => List.getElem?_set_ne hj.symm, s, t, hs,
    List.getElem?_set_self hk, ht⟩

end Sys2Proof.Machine
end

section
/-! PROOFS. 30_encoding.md: the word encoding, both ways. A word is its three fields, and an operation is read from a
word field by field. The one relation behind O2 and O3 is `w &&& i.usedBits = encode i`, taken apart into fields in
`wordOf_and_usedBits_eq_encode_iff`: it holds of the word of `i`, and of any word `w` and a well-formed `i` exactly when
`w` decodes to `i`. -/

namespace Sys2Proof

open Laws.TableRow (opField_wordOf)

/-! ## The fields of a word -/

@[simp] theorem aField_wordOf (op : OpField) (a b : OperandField) : aField (wordOf op a b) = a :=
  (BitVec.extractLsb'_append_eq_of_le (Nat.le_refl 16)).trans BitVec.extractLsb'_append_eq_right

@[simp] theorem bField_wordOf (op : OpField) (a b : OperandField) : bField (wordOf op a b) = b :=
  BitVec.extractLsb'_append_eq_right

/-- A word is its three fields. -/
theorem wordOf_fields (w : OpWord) : wordOf (opField w) (aField w) (bField w) = w := by
  have h : opField w ++ aField w = w.extractLsb' 16 19 :=
    BitVec.extractLsb'_append_extractLsb'_eq_extractLsb' rfl
  rw [wordOf, h]
  exact BitVec.extractLsb'_append_extractLsb' (w := 19) (len := 16)

theorem wordOf_inj {op op' : OpField} {a a' b b' : OperandField} :
    wordOf op a b = wordOf op' a' b' ↔ op = op' ∧ a = a' ∧ b = b' := by
  refine ⟨fun h => ⟨?_, ?_, ?_⟩, fun ⟨ho, ha, hb⟩ => by rw [ho, ha, hb]⟩
  · simpa only [opField_wordOf] using congrArg opField h
  · simpa only [aField_wordOf] using congrArg aField h
  · simpa only [bField_wordOf] using congrArg bField h

theorem wordOf_and_wordOf (op op' : OpField) (a a' b b' : OperandField) :
    wordOf op a b &&& wordOf op' a' b' = wordOf (op &&& op') (a &&& a') (b &&& b') := by
  unfold wordOf
  rw [BitVec.and_append, BitVec.and_append]

theorem and_seven_op (op : OpField) : op &&& 7#3 = op := BitVec.and_allOnes

theorem and_ffff (f : OperandField) : f &&& 0xFFFF#16 = f := BitVec.and_allOnes

/-! ## Operation codes and rows -/

theorem Mnemonic.code_inj {m m' : Mnemonic} : m.code = m'.code ↔ m = m' := by
  cases m <;> cases m' <;> decide

/-- Every operation code is that of a row (30_encoding.md R52, R58). -/
theorem exists_row_code : ∀ op : OpField, ∃ r ∈ opcodeTable, op = r.mnemonic.code := by decide

theorem opcodeTable_mnemonic_inj :
    ∀ r ∈ opcodeTable, ∀ r' ∈ opcodeTable, r.mnemonic = r'.mnemonic → r = r' := by decide

theorem opcodeTable_pattern : ∀ r ∈ opcodeTable, r.pattern = wordOf r.mnemonic.code 0#16 0#16 := by decide

theorem opcodeTable_mask : ∀ r ∈ opcodeTable, r.mask = wordOf 7#3 0#16 0#16 := by decide

/-- A row covers the words that have its code in `op`. -/
theorem covers_iff {r : OpRow} (hr : r ∈ opcodeTable) (w : OpWord) :
    r.covers w = true ↔ opField w = r.mnemonic.code := by
  rw [OpRow.covers, beq_iff_eq, opcodeTable_mask r hr, opcodeTable_pattern r hr]
  conv_lhs => rw [← wordOf_fields w]
  simp [wordOf_and_wordOf, wordOf_inj, and_seven_op]

theorem exists_wordOf (w : OpWord) : ∃ (m : Mnemonic) (a b : OperandField), w = wordOf m.code a b := by
  obtain ⟨r, -, hr⟩ := exists_row_code (opField w)
  exact ⟨r.mnemonic, aField w, bField w, by rw [← hr, wordOf_fields]⟩

/-! ## Samples -/

/-- A sample fits when it is a whole number of millivolts in range (30_encoding.md R51). -/
theorem fits_iff (x : SampleT) :
    SampleT.fits x = true ↔ ∃ n : Int, -32768 ≤ n ∧ n ≤ 32767 ∧ x = (n : Rat) := by
  simp only [SampleT.fits, Bool.and_eq_true, beq_iff_eq, decide_eq_true_eq]
  constructor
  · rintro ⟨⟨hden, hlo⟩, hhi⟩
    exact ⟨x.num, hlo, hhi, (Rat.coe_int_num_of_den_eq_one hden).symm⟩
  · rintro ⟨n, hlo, hhi, rfl⟩
    exact ⟨⟨Rat.den_intCast n, hlo⟩, hhi⟩

@[simp] theorem fits_sampleOfField (f : OperandField) : SampleT.fits (sampleOfField f) = true :=
  (fits_iff _).mpr ⟨f.toInt, f.le_toInt, Int.le_of_lt_add_one f.toInt_lt, rfl⟩

@[simp] theorem fieldOfSample_sampleOfField (f : OperandField) : fieldOfSample (sampleOfField f) = f :=
  BitVec.ofInt_toInt

theorem sampleOfField_fieldOfSample {x : SampleT} (h : SampleT.fits x = true) :
    sampleOfField (fieldOfSample x) = x := by
  obtain ⟨n, hlo, hhi, rfl⟩ := (fits_iff x).mp h
  exact congrArg Int.cast (BitVec.toInt_ofInt_eq_self (by decide) hlo (Int.lt_add_one_of_le hhi))

/-- A sample is read from all bits of its field. -/
theorem sampleOfField_of_and_ffff {f : OperandField} {x : SampleT} (hx : SampleT.fits x = true)
    (h : f &&& 0xFFFF#16 = fieldOfSample x) : sampleOfField f = x := by
  rw [← and_ffff f, h, sampleOfField_fieldOfSample hx]

/-- A field is read as a two's-complement number (30_encoding.md R51). -/
theorem sampleOfField_eq (f : OperandField) :
    sampleOfField f = if f.toNat < 32768 then (f.toNat : Rat) else (f.toNat : Rat) - 65536 := by
  rw [sampleOfField, BitVec.toInt_eq_toNat_cond]
  by_cases h : f.toNat < 32768
  · rw [if_pos h, if_pos (by omega)]
    exact Int.cast_natCast _
  · rw [if_neg h, if_neg (by omega)]
    norm_num

/-! ## One-bit values -/

theorem fieldOfBit_getLsbD (f : OperandField) : fieldOfBit (f.getLsbD 0) = f &&& 1#16 := by
  rw [BitVec.and_one_eq_setWidth_ofBool_getLsbD]
  cases f.getLsbD 0 <;> rfl

theorem fieldOfBit_injective : Function.Injective fieldOfBit := by
  intro u v
  cases u <;> cases v <;> decide

/-- A one-bit value is read from bit 0 alone (30_encoding.md R53). -/
theorem getLsbD_of_and_one {f : OperandField} {v : Bool} (h : f &&& 1#16 = fieldOfBit v) : f.getLsbD 0 = v :=
  fieldOfBit_injective ((fieldOfBit_getLsbD f).trans h)

/-! ## The operands of `CFGW` -/

/-- The register number is `A[2:0]` (30_encoding.md R54). -/
theorem decodeCfg_and_seven (a b : OperandField) : decodeCfg (a &&& 7#16) b = decodeCfg a b := by
  simp [decodeCfg]

theorem exists_and_seven_eq (a : OperandField) : ∃ k < 8, a &&& 7#16 = BitVec.ofNat 16 k := by
  refine ⟨a.toNat % 2 ^ 3, Nat.mod_lt _ (by decide), BitVec.eq_of_toNat_eq ?_⟩
  rw [← Nat.and_two_pow_sub_one_eq_mod]
  simp

theorem regNumber_decodeCfg (a b : OperandField) :
    BitVec.ofNat 16 (decodeCfg a b).regNumber = a &&& 7#16 := by
  obtain ⟨k, hk, ha⟩ := exists_and_seven_eq a
  rw [← decodeCfg_and_seven, ha]
  interval_cases k <;> rfl

theorem wf_decodeCfg (a b : OperandField) : (decodeCfg a b).wf = true := by
  unfold decodeCfg
  split <;> simp [CfgWrite.wf, b.isLt]

theorem fieldB_decodeCfg (a b : OperandField) : (decodeCfg a b).fieldB = b &&& (decodeCfg a b).usedB := by
  unfold decodeCfg
  split <;> simp only [CfgWrite.fieldB, CfgWrite.usedB, fieldOfSample_sampleOfField, fieldOfBit_getLsbD, and_ffff,
    BitVec.ofNat_toNat, BitVec.setWidth_eq, BitVec.and_zero]

theorem regNumber_and_seven (w : CfgWrite) :
    BitVec.ofNat 16 w.regNumber &&& 7#16 = BitVec.ofNat 16 w.regNumber := by
  cases w with
  | reserved r => cases r <;> rfl
  | _ => simp [CfgWrite.regNumber]

theorem fieldB_and_usedB (w : CfgWrite) : w.fieldB &&& w.usedB = w.fieldB := by
  cases w with
  | thrLow | thrHigh | groupSize => exact and_ffff _
  | risingEdge v | msbFirst v | asHex v => cases v <;> decide
  | reserved => exact BitVec.and_zero

/-- The operands of `CFGW` are read from the bits that the register examines. -/
theorem decodeCfg_eq_of_and_usedB {a b : OperandField} {w : CfgWrite} (hw : w.wf = true)
    (ha : a &&& 7#16 = BitVec.ofNat 16 w.regNumber) (hb : b &&& w.usedB = w.fieldB) : decodeCfg a b = w := by
  rw [← decodeCfg_and_seven, ha]
  cases w with
  | thrLow v | thrHigh v => simpa [CfgWrite.regNumber, decodeCfg] using sampleOfField_of_and_ffff hw hb
  | risingEdge v | msbFirst v | asHex v => simpa [CfgWrite.regNumber, decodeCfg] using getLsbD_of_and_one hb
  | groupSize g =>
    obtain rfl : b = BitVec.ofNat 16 g := (and_ffff b).symm.trans hb
    simpa [CfgWrite.regNumber, decodeCfg] using of_decide_eq_true hw
  | reserved r => cases r <;> rfl

/-! ## Decoding and encoding by fields -/

/-- The operation of the row `m` with the operand fields `a` and `b` (30_encoding.md R53). -/
def operationOf (m : Mnemonic) (a b : OperandField) : Instr :=
  match m with
  | .NOP => .nop
  | .START => .start
  | .SMP2 => .smp2 (sampleOfField a) (sampleOfField b)
  | .SMPC => .smpc (sampleOfField a)
  | .SMPD => .smpd (sampleOfField b)
  | .END => .endRun
  | .CFGW => .cfgw (decodeCfg a b)
  | .RSVD => .rsvd

@[simp] theorem decode_wordOf (m : Mnemonic) (a b : OperandField) :
    decode (wordOf m.code a b) = operationOf m a b := by
  unfold decode
  rw [opField_wordOf, aField_wordOf, bField_wordOf]
  cases m <;> rfl

@[simp] theorem mnemonic_operationOf (m : Mnemonic) (a b : OperandField) : (operationOf m a b).mnemonic = m := by
  cases m <;> rfl

theorem wf_operationOf (m : Mnemonic) (a b : OperandField) : (operationOf m a b).wf = true := by
  cases m <;> simp [operationOf, Instr.wf, wf_decodeCfg]

/-- The code of the decoded operation is the `op` field. -/
theorem code_mnemonic_decode (w : OpWord) : (decode w).mnemonic.code = opField w := by
  obtain ⟨m, a, b, rfl⟩ := exists_wordOf w
  rw [decode_wordOf, mnemonic_operationOf, opField_wordOf]

/-- Every operation examines the whole `op` field. -/
theorem usedBits_eq_wordOf (i : Instr) : i.usedBits = wordOf 7#3 (aField i.usedBits) (bField i.usedBits) := by
  have h : opField i.usedBits = 7#3 := by cases i <;> exact opField_wordOf _ _ _
  rw [← h, wordOf_fields]

/-- A word agrees with the word of `i` on the bits that `i` examines when it does field by field. -/
theorem wordOf_and_usedBits_eq_encode_iff {m : Mnemonic} {a b : OperandField} {i : Instr} :
    wordOf m.code a b &&& i.usedBits = encode i ↔
      m = i.mnemonic ∧ a &&& aField i.usedBits = i.fieldA ∧ b &&& bField i.usedBits = i.fieldB := by
  rw [usedBits_eq_wordOf, wordOf_and_wordOf, encode, wordOf_inj, and_seven_op, Mnemonic.code_inj,
    aField_wordOf, bField_wordOf]

/-- An operation is encoded with zeros in the bits it ignores (30_encoding.md R62). -/
theorem encode_and_usedBits (i : Instr) : encode i &&& i.usedBits = encode i := by
  refine wordOf_and_usedBits_eq_encode_iff.mpr ⟨rfl, ?_, ?_⟩
  · cases i <;> simp [Instr.usedBits, Instr.fieldA, and_ffff, regNumber_and_seven]
  · cases i <;> simp [Instr.usedBits, Instr.fieldB, and_ffff, fieldB_and_usedB]

/-- A word agrees with the word of the operation it decodes to on the bits that the operation examines. -/
theorem and_usedBits_decode (w : OpWord) : w &&& (decode w).usedBits = encode (decode w) := by
  obtain ⟨m, a, b, rfl⟩ := exists_wordOf w
  rw [decode_wordOf]
  refine wordOf_and_usedBits_eq_encode_iff.mpr ⟨(mnemonic_operationOf m a b).symm, ?_, ?_⟩
  · cases m <;> simp [operationOf, Instr.usedBits, Instr.fieldA, and_ffff, regNumber_decodeCfg]
  · cases m <;> simp [operationOf, Instr.usedBits, Instr.fieldB, and_ffff, fieldB_decodeCfg]

/-- A word decodes to an operation when it agrees with its word on the bits that the operation examines: the others are
not examined (30_encoding.md R57). -/
theorem decode_eq_of_and_usedBits {w : OpWord} {i : Instr} (hi : i.wf = true) (h : w &&& i.usedBits = encode i) :
    decode w = i := by
  obtain ⟨m, a, b, rfl⟩ := exists_wordOf w
  obtain ⟨rfl, ha, hb⟩ := wordOf_and_usedBits_eq_encode_iff.mp h
  rw [decode_wordOf]
  cases i with
  | nop | start | endRun | rsvd => rfl
  | smp2 c d =>
    obtain ⟨hc, hd⟩ := Bool.and_eq_true_iff.mp hi
    simp only [Instr.usedBits, aField_wordOf, bField_wordOf] at ha hb
    exact congrArg₂ Instr.smp2 (sampleOfField_of_and_ffff hc ha) (sampleOfField_of_and_ffff hd hb)
  | smpc c =>
    simp only [Instr.usedBits, aField_wordOf] at ha
    exact congrArg Instr.smpc (sampleOfField_of_and_ffff hi ha)
  | smpd d =>
    simp only [Instr.usedBits, bField_wordOf] at hb
    exact congrArg Instr.smpd (sampleOfField_of_and_ffff hi hb)
  | cfgw w =>
    simp only [Instr.usedBits, aField_wordOf, bField_wordOf] at ha hb
    exact congrArg Instr.cfgw (decodeCfg_eq_of_and_usedB hi ha hb)

theorem wf_decode (w : OpWord) : (decode w).wf = true := by
  obtain ⟨m, a, b, rfl⟩ := exists_wordOf w
  rw [decode_wordOf, wf_operationOf]

/-! ## The statements -/

/-- Settles O2: an operation's own word and a word's own operation agree on the bits that the operation examines. -/
theorem decodeEncodeAgree : Obligations.DecodeEncodeAgree := by
  refine ⟨fun i hi => ⟨decode_eq_of_and_usedBits hi (encode_and_usedBits i), ?_⟩,
    fun w => ⟨wf_decode w, (and_usedBits_decode w).symm⟩⟩
  rw [← encode_and_usedBits, BitVec.and_assoc, BitVec.and_not_self]
  exact BitVec.and_zero

/-- Settles O3: a word that agrees with `w` on the bits that the operation of `w` examines agrees with its word. -/
theorem ignoredBitsAreNotExamined : Obligations.IgnoredBitsAreNotExamined :=
  fun w _ h => decode_eq_of_and_usedBits (wf_decode w) (h.trans (and_usedBits_decode w))

/-- Settles O4: a row covers a word when it has the word's code, and the rows have different codes. -/
theorem everyWordHasExactlyOneRow : Obligations.EveryWordHasExactlyOneRow := by
  intro w
  obtain ⟨r, hr, hcode⟩ := exists_row_code (opField w)
  refine ⟨r, hr, (covers_iff hr w).mpr hcode, ?_, fun r' hr' hc => opcodeTable_mnemonic_inj r' hr' r hr ?_⟩
  · rw [← Mnemonic.code_inj, code_mnemonic_decode, hcode]
  · rw [← Mnemonic.code_inj, ← (covers_iff hr' w).mp hc, hcode]

/-- Settles O5: the bounds of the field, and the two branches of `encodeWord`. -/
theorem onlyWholeMillivoltsInRangeFit : Obligations.OnlyWholeMillivoltsInRangeFit :=
  ⟨fits_iff, fun i hi => by simp [encodeWord, hi], fun i hi => by simp [encodeWord, hi], sampleOfField_eq⟩

/-- Settles O1: the fourteen words, decoded. -/
theorem listedWordsDecode : Obligations.ListedWordsDecode := by
  unfold Obligations.ListedWordsDecode
  decide

end Sys2Proof
end

section
/-! PROOFS. 30_encoding.md R61: `CONFIG` is a list of writes, some of them omitted. Outside `RUN` a list of writes leaves
the registers that the writes leave one after another, and moves nothing else. -/

namespace Sys2Proof.Machine

/-- The registers after an operand of `CONFIG`: written, or kept where the operand is omitted. -/
def CfgRegs.writeGiven (c : CfgRegs) : Option CfgWrite → Option CfgRegs
  | none => some c
  | some w => c.write w

section
variable (c : CfgRegs)

@[simp] theorem CfgRegs.writeGiven_thrLow (v : Option SampleT) :
    c.writeGiven (v.map .thrLow) = some { c with thrLow := v.getD c.thrLow } := by cases v <;> rfl

@[simp] theorem CfgRegs.writeGiven_thrHigh (v : Option SampleT) :
    c.writeGiven (v.map .thrHigh) = some { c with thrHigh := v.getD c.thrHigh } := by cases v <;> rfl

@[simp] theorem CfgRegs.writeGiven_risingEdge (v : Option Bool) :
    c.writeGiven (v.map .risingEdge) = some { c with risingEdge := v.getD c.risingEdge } := by cases v <;> rfl

@[simp] theorem CfgRegs.writeGiven_groupSize (v : Option Nat) :
    c.writeGiven (v.map .groupSize) = some { c with groupSize := v.getD c.groupSize } := by cases v <;> rfl

@[simp] theorem CfgRegs.writeGiven_msbFirst (v : Option Bool) :
    c.writeGiven (v.map .msbFirst) = some { c with msbFirst := v.getD c.msbFirst } := by cases v <;> rfl

@[simp] theorem CfgRegs.writeGiven_asHex (v : Option Bool) :
    c.writeGiven (v.map .asHex) = some { c with asHex := v.getD c.asHex } := by cases v <;> rfl

end

theorem execCfgw_of_write {w : CfgWrite} {s : State} {c : CfgRegs} (hp : s.phase ≠ .run)
    (hw : s.cfg.write w = some c) : exec (.cfgw w) s = .next { s.quiet with cfg := c } := by
  simp [exec, execCfgw, hw, hp]

/-- An operation that emits nothing hands its state on to the rest. -/
theorem runOps_cons_of_silent {i : Instr} {ops : List Instr} {s t u : State} {es : List Event}
    (hi : exec i s = .next t) (ht : t.events = []) (hops : runOps ops t = .next (u, es)) :
    runOps (i :: ops) s = .next (u, es) := by
  simp [runOps, hi, ht, hops]

/-- Outside `RUN` the writes of a list, where given, are done one after another without an event, and nothing but the
configuration registers and the strobes of the step before moves. -/
theorem runOps_writes (ws : List (Option CfgWrite)) {s : State} {c : CfgRegs} (hp : s.phase ≠ .run)
    (hc : ws.foldlM CfgRegs.writeGiven s.cfg = some c) :
    ∃ t, runOps (ws.filterMap fun w => w.map Instr.cfgw) s = .next (t, [])
      ∧ t.quiet = { s.quiet with cfg := c } := by
  induction ws generalizing s with
  | nil =>
    obtain rfl : s.cfg = c := Option.some.inj hc
    exact ⟨s, rfl, rfl⟩
  | cons w ws ih =>
    obtain ⟨k, hk, hrest⟩ := Option.bind_eq_some_iff.mp hc
    cases w with
    | none =>
      obtain rfl : s.cfg = k := Option.some.inj hk
      exact ih hp hrest
    | some w =>
      obtain ⟨t, hrun, ht⟩ := ih (s := { s.quiet with cfg := k }) hp hrest
      exact ⟨t, runOps_cons_of_silent (execCfgw_of_write hp hk) rfl hrun, ht⟩

/-- Settles O52: the six writes of `CONFIG`, each given or omitted. -/
theorem configSetsTheGivenRegisters : Obligations.ConfigSetsTheGivenRegisters :=
  fun _ _ _ _ _ _ _ hp => runOps_writes _ hp (by simp)

end Sys2Proof.Machine
end

section
/-! PROOFS. 40_hysteresis_comparator.md: the comparator by its table, the states in which a sample beat has no meaning,
and the `DIG` events of a run. A beat gives each channel its own sample, if it carries one; so the levels of a channel
depend on the samples of that channel alone (`DigitizedBy`), and from the first defined level on they are the loop of
`digitize`, one `nextLevel` a sample. -/

namespace Sys2Proof.Machine

/-! ## The comparator -/

section
variable {lo hi v : SampleT} {r : CmpRegs}

theorem cmpNext_first (h : r.n = 0) : cmpNext lo hi r v = cmpFirst lo hi v := if_pos h

theorem cmpNext_later (h : r.n ≠ 0) : cmpNext lo hi r v = cmpLater lo hi r.hs v := if_neg h

theorem isAmbiguous_iff : isAmbiguous lo hi r v = true ↔ r.n = 0 ∧ cmpNext lo hi r v = .undet := by
  simp only [isAmbiguous, Bool.and_eq_true, beq_iff_eq]
  exact and_congr_right fun h => by rw [cmpNext_first h]

@[simp] theorem cmpLater_undet : cmpLater lo hi .undet v = .undet := rfl

@[simp] theorem cmpLater_low : cmpLater lo hi .low v = if hi ≤ v then .high else .low := by simp [cmpLater]

@[simp] theorem cmpLater_high : cmpLater lo hi .high v = if v ≤ lo then .low else .high := by simp [cmpLater]

end

/-- Settles O32: the state after the sample is `cmpNext`, R72 on a first sample and R73 on a later one. -/
theorem comparatorFollowsItsTable : Obligations.ComparatorFollowsItsTable := by
  intro ch v s
  refine ⟨cmpNext s.cfg.thrLow s.cfg.thrHigh (s.cmp ch) v, ?_, fun hn => ?_, fun hn => ?_⟩
  · simp only [cmpStep_eq, isAmbiguous_iff]
  · rw [cmpNext_first hn]
    refine ⟨fun hh => if_pos hh, fun hh hl => ?_, fun hl hh => ?_⟩ <;>
      simp [cmpFirst, not_le.mpr hh, hl]
  · rw [cmpNext_later hn]
    refine ⟨fun hs hh => ?_, fun hs hh => ?_, fun hs hl => ?_, fun hs hl => ?_, fun hs => ?_⟩ <;> rw [hs]
    · rw [cmpLater_low, if_pos hh]
    · rw [cmpLater_low, if_neg (not_le.mpr hh)]
    · rw [cmpLater_high, if_pos hl]
    · rw [cmpLater_high, if_neg (not_le.mpr hl)]
    · rw [cmpLater_undet]

/-! ## Beats without a meaning -/

/-- A paired beat in `RUN` goes on behind the comparators. -/
theorem execSmp2_of_run {s : State} (c d : SampleT) (hp : s.phase = .run) (hl : s.cfg.thrLow ≤ s.cfg.thrHigh) :
    execSmp2 c d s = gatedBeat (afterComparators c d s) :=
  sampleBeat_of_run _ hp hl

theorem gatedBeat_of_flag {u : State} (ha : u.flags.any = true) : gatedBeat u = .next u := by
  simp [gatedBeat, ha]

theorem gatedBeat_of_levels {u : State} {qc qd : Bool} (ha : u.flags.any = false) (hc : u.clk.hs.bit? = some qc)
    (hd : u.dat.hs.bit? = some qd) : gatedBeat u = latchBeat qc qd u := by
  simp [gatedBeat, ha, hc, hd]

theorem gatedBeat_of_undet {u : State} (ha : u.flags.any = false) (h : u.clk.hs = .undet ∨ u.dat.hs = .undet) :
    gatedBeat u = .fault .undeterminedLevel := by
  unfold gatedBeat
  obtain h | h := h
  · simp [ha, h, Hyst.bit?]
  · cases u.clk.hs.bit? <;> simp [ha, h, Hyst.bit?]

theorem latchBeat_of_zero {u : State} {qc qd : Bool} (he : edgeSeen u qc = true) (hg : u.cfg.groupSize = 0) :
    latchBeat qc qd u = .refused .zeroGroupSize := by
  simp [latchBeat, he, hg]

theorem latchBeat_of_pos {u : State} (qc qd : Bool) (hg : u.cfg.groupSize ≠ 0) :
    latchBeat qc qd u = .next (latStep (edgeSeen u qc) qd (edgStep qc u)) := by
  simp [latchBeat, hg]

@[simp] theorem afterComparators_cfg (c d : SampleT) (s : State) : (afterComparators c d s).cfg = s.cfg := by
  simp [afterComparators]

/-- A finite width that one of the four counters does not fit. -/
theorem keepCounters_of_overflow {k : Nat} {t : State}
    (h : 2 ^ k ≤ t.clk.n ∨ 2 ^ k ≤ t.dat.n ∨ 2 ^ k ≤ t.nBits ∨ 2 ^ k ≤ t.nVals) :
    keepCounters (some k) t = .refused .counterOverflow := by
  have hfit : t.countersFit (some k) = false := by
    simp only [State.countersFit, Bool.and_eq_false_iff, decide_eq_false_iff_not, not_lt]
    tauto
  simp [keepCounters, hfit]

/-- A sample beat in `RUN` with inverted thresholds. -/
theorem exec_beat_of_inverted {i : Instr} {s : State} (hi : isBeat i = true) (hp : s.phase = .run)
    (hc : s.cfg.thrHigh < s.cfg.thrLow) : exec i s = .refused .invertedThresholds := by
  cases i with
  | smp2 | smpc | smpd =>
    simp only [exec, execSmp2, execSmpc, execSmpd]
    exact sampleBeat_of_inverted _ hp (not_le.mpr hc)
  | nop | start | endRun | cfgw | rsvd => cases hi

/-- Settles O19, one stop after another in the order in which a beat meets them. -/
theorem beatsWithoutMeaningStop : Obligations.BeatsWithoutMeaningStop := by
  refine ⟨fun i s => exec_beat_of_inverted, ?_, fun k t => ⟨rfl, keepCounters_of_overflow⟩⟩
  rintro c d s u hp hl rfl ha
  have hx : exec (.smp2 c d) s = gatedBeat (afterComparators c d s) := execSmp2_of_run c d hp hl
  refine ⟨fun hu => hx.trans (gatedBeat_of_undet ha hu), fun qc qd hc hd he hg => ?_⟩
  exact (hx.trans (gatedBeat_of_levels ha hc hd)).trans (latchBeat_of_zero he (by simpa using hg))

/-! ## Under the invariant every operation has a next state -/

/-- The level of a sampled channel whose ambiguity flag is clear. -/
theorem CmpRegs.Fits.exists_bit {r : CmpRegs} (h : r.Fits false) (hn : r.n ≠ 0) : ∃ b, r.hs.bit? = some b := by
  cases hr : r.hs with
  | undet => simpa [hn] using h.undet.mp hr
  | low => exact ⟨false, rfl⟩
  | high => exact ⟨true, rfl⟩

theorem Flags.get_of_any_eq_false {f : Flags} (h : f.any = false) (e : ErrFlag) : f.get e = false := by
  by_contra he
  simp [f.any_iff.mpr ⟨e, by simpa using he⟩] at h

/-- A sample beat answers a next state when what it does in `RUN` does. -/
theorem State.Inv.sampleBeat_exists {s : State} {body : State → Result} (h : s.Inv)
    (hb : s.phase = .run → ∃ t, body s.quiet = .next t) : ∃ t, sampleBeat s body = .next t := by
  by_cases hp : s.phase = .run
  · rw [sampleBeat_of_run body hp ((CfgRegs.legal_iff _).mp (h.legalRun hp)).1]
    exact hb hp
  · exact ⟨_, sampleBeat_of_not_run body hp⟩

/-- With the gate open both levels are defined, and the group size of the run is not 0. -/
theorem State.Inv.gatedBeat_exists {s : State} (h : s.Inv) (hp : s.phase = .run) (c d : SampleT) :
    ∃ t, gatedBeat (afterComparators c d s) = .next t := by
  cases ha : (afterComparators c d s).flags.any with
  | true => exact ⟨_, gatedBeat_of_flag ha⟩
  | false =>
    have hfits (ch) : ((afterComparators c d s).cmp ch).Fits false :=
      Flags.get_of_any_eq_false ha ch.ambigFlag ▸ (h.sampled_afterComparators c d).fits ch
    obtain ⟨qc, hc⟩ := (hfits .clk).exists_bit (by simp)
    obtain ⟨qd, hd⟩ := (hfits .dat).exists_bit (by simp)
    have hg := ((CfgRegs.legal_iff _).mp (h.legalRun hp)).2
    exact ⟨_, (gatedBeat_of_levels ha hc hd).trans (latchBeat_of_pos qc qd (by simp; omega))⟩

/-- In a state that meets the invariant no operation stops. -/
theorem State.Inv.exec_exists {s : State} (h : s.Inv) (i : Instr) : ∃ t, Machine.exec i s = .next t := by
  cases i with
  | nop | rsvd => exact ⟨_, rfl⟩
  | start =>
    by_cases hp : s.phase = .run
    · exact ⟨_, if_pos hp⟩
    · cases hl : s.cfg.legal with
      | true => exact ⟨_, execStart_of_legal hp hl⟩
      | false => exact ⟨_, execStart_of_illegal hp hl⟩
  | endRun =>
    by_cases hp : s.phase = .run
    · exact ⟨_, if_neg (not_not.mpr hp)⟩
    · exact ⟨_, if_pos hp⟩
  | cfgw w =>
    simp only [Machine.exec, execCfgw]
    split
    · exact ⟨_, rfl⟩
    · split <;> exact ⟨_, rfl⟩
  | smpc | smpd =>
    simp only [Machine.exec, execSmpc, execSmpd]
    exact h.sampleBeat_exists fun _ => ⟨_, rfl⟩
  | smp2 c d =>
    simp only [Machine.exec, execSmp2]
    exact h.sampleBeat_exists fun hp => h.gatedBeat_exists hp c d

/-! ## A channel and its samples -/

/-- The comparator of a channel after one more sample. -/
def CmpRegs.sample (c : CfgRegs) (r : CmpRegs) (v : SampleT) : CmpRegs :=
  ⟨cmpNext c.thrLow c.thrHigh r v, r.n + 1⟩

/-- The levels, where defined, of a comparator that takes the samples from the registers `r` on. -/
def CmpRegs.levels (c : CfgRegs) : CmpRegs → List SampleT → List Bool
  | _, [] => []
  | r, v :: vs => (r.sample c v).hs.bit?.toList ++ levels c (r.sample c v) vs

theorem CmpRegs.levels_append (c : CfgRegs) (r : CmpRegs) (vs ws : List SampleT) :
    r.levels c (vs ++ ws) = r.levels c vs ++ (vs.foldl (CmpRegs.sample c) r).levels c ws := by
  induction vs generalizing r with
  | nil => rfl
  | cons v vs ih => simp [CmpRegs.levels, ih]

theorem CmpRegs.foldl_sample_n (c : CfgRegs) (r : CmpRegs) (vs : List SampleT) :
    (vs.foldl (CmpRegs.sample c) r).n = r.n + vs.length := by
  induction vs generalizing r with
  | nil => rfl
  | cons v vs ih => simp [ih, CmpRegs.sample]; omega

/-- The comparator of `ch` went from `r` to `r'` by the samples `vs`, and the events `es` show its levels. -/
structure DigitizedBy (c : CfgRegs) (ch : Chan) (r r' : CmpRegs) (es : List Event) (vs : List SampleT) : Prop where
  regs : r' = vs.foldl (CmpRegs.sample c) r
  bits : es.filterMap (Event.digBit? ch) = r.levels c vs

theorem DigitizedBy.append {c : CfgRegs} {ch : Chan} {r r' r'' : CmpRegs} {es es' : List Event}
    {vs vs' : List SampleT} (h : DigitizedBy c ch r r' es vs) (h' : DigitizedBy c ch r' r'' es' vs') :
    DigitizedBy c ch r r'' (es ++ es') (vs ++ vs') where
  regs := by rw [h'.regs, h.regs, List.foldl_append]
  bits := by rw [List.filterMap_append, h.bits, h'.bits, h.regs, CmpRegs.levels_append]

/-- The counter of a channel is the number of its samples since its reset. -/
theorem DigitizedBy.n_eq {c : CfgRegs} {ch : Chan} {r : CmpRegs} {es : List Event} {vs : List SampleT}
    (h : DigitizedBy c ch .reset r es vs) : r.n = vs.length := by
  rw [h.regs, CmpRegs.foldl_sample_n]
  exact Nat.zero_add _

/-- The `DIG` event of a channel shows on that channel alone. -/
@[simp] theorem filterMap_digBit?_dig (ch ch' : Chan) (o : Option Bool) :
    (o.map (Event.dig ch')).toList.filterMap (Event.digBit? ch) = if ch' = ch then o.toList else [] := by
  cases o <;> by_cases h : ch' = ch <;> simp [Event.digBit?, h]

@[simp] theorem filterMap_digBit?_groupEvents (ch : Chan) (b : Bool) (u : State) :
    (groupEvents b u).filterMap (Event.digBit? ch) = [] := by
  by_cases hg : u.cnt + 1 = u.cfg.groupSize
  · cases hx : u.cfg.asHex <;> simp [groupEvents, hg, hx, Event.digBit?]
  · simp [groupEvents, hg]

/-- A paired beat gives each channel its sample. -/
theorem digitizedBy_afterComparators (c d : SampleT) (s : State) (ch : Chan) :
    DigitizedBy s.cfg ch (s.cmp ch) ((afterComparators c d s).cmp ch) (afterComparators c d s).events
      (sampleOf? ch (.smp2 c d)).toList := by
  constructor
  · cases ch <;> simp [afterComparators, sampleOf?, CmpRegs.sample]
  · rw [afterComparators_events]
    cases ch <;> simp [afterComparators, sampleOf?, CmpRegs.sample, CmpRegs.levels]

/-- An unpaired beat gives its channel the sample and leaves the other alone. -/
theorem digitizedBy_cmpStep (ch' : Chan) (v : SampleT) (s : State) (ch : Chan) :
    DigitizedBy s.cfg ch (s.cmp ch) ((cmpStep ch' v s.quiet).cmp ch) (cmpStep ch' v s.quiet).events
      (if ch' = ch then [v] else []) := by
  by_cases h : ch' = ch
  · subst h
    constructor <;> simp [cmpStep_cmp, cmpStep_events, CmpRegs.sample, CmpRegs.levels]
  · constructor <;> simp [cmpStep_cmp_of_ne ch' v s.quiet (Ne.symm h), cmpStep_events, CmpRegs.levels, h]

/-! ## Runs of beats -/

/-- The events of a beat with an edge show the levels that its comparators show. -/
theorem filterMap_digBit?_edgeBeat (ch : Chan) (qc qd : Bool) (u : State) :
    (edgeBeat qc qd u).events.filterMap (Event.digBit? ch) = u.events.filterMap (Event.digBit? ch) := by
  have h : (Event.edge :: .bit qd :: groupEvents qd u).filterMap (Event.digBit? ch) = [] :=
    filterMap_digBit?_groupEvents ch qd u
  simp only [edgeBeat, List.filterMap_append, h, List.append_nil]

/-- Beats and `NOP`s are legal in a run. -/
theorem isProtocolFault_of_beat {i : Instr} (hi : isBeat i = true ∨ i = .nop) : isProtocolFault i .run = false := by
  cases i with
  | nop | smp2 | smpc | smpd => rfl
  | start | endRun | cfgw | rsvd => simp [isBeat, sampleOf?] at hi

/-- What a beat or a `NOP` does in a run: the run stays open with its configuration, and each channel takes the sample
that is its own. -/
theorem exec_beat_digitizes {i : Instr} {s t : State} (hi : isBeat i = true ∨ i = .nop) (hp : s.phase = .run)
    (hx : exec i s = .next t) : t.phase = .run ∧ t.cfg = s.cfg
      ∧ ∀ ch, DigitizedBy s.cfg ch (s.cmp ch) (t.cmp ch) t.events (sampleOf? ch i).toList := by
  cases exec_cases hx with
  | idle => exact ⟨hp, rfl, fun ch => ⟨by simp [sampleOf?], rfl⟩⟩
  | protocol _ _ h => simp [hp, isProtocolFault_of_beat hi] at h
  | opened | notOpened | closed | written => simp [isBeat, sampleOf?] at hi
  | clockOnly c =>
    refine ⟨by simpa using hp, by simp, fun ch => ?_⟩
    rw [State.cmp_raise, State.raise_events]
    cases ch <;> exact digitizedBy_cmpStep .clk c s _
  | dataOnly d =>
    refine ⟨by simpa using hp, by simp, fun ch => ?_⟩
    rw [State.cmp_raise, State.raise_events]
    cases ch <;> exact digitizedBy_cmpStep .dat d s _
  | gateClosed c d => exact ⟨by simpa [afterComparators] using hp, by simp, digitizedBy_afterComparators c d s⟩
  | noEdge c d =>
    refine ⟨by simpa [afterComparators] using hp, by simp, fun ch => ?_⟩
    cases ch <;> exact digitizedBy_afterComparators c d s _
  | edge c d _ qc qd =>
    refine ⟨by simpa [edgeBeat, afterComparators] using hp, by simp [edgeBeat], fun ch => ?_⟩
    have h := digitizedBy_afterComparators c d s ch
    exact ⟨by cases ch <;> exact h.regs, (filterMap_digBit?_edgeBeat ch qc qd _).trans h.bits⟩

/-- Beats and `NOP`s in an open run never stop, and digitize both channels. -/
theorem runOps_beats_digitizes (beats : List Instr) {s : State} (h : s.Inv) (hp : s.phase = .run)
    (hb : ∀ i ∈ beats, isBeat i = true ∨ i = .nop) :
    ∃ t es, runOps beats s = .next (t, es) ∧ t.Inv
      ∧ ∀ ch, DigitizedBy s.cfg ch (s.cmp ch) (t.cmp ch) es (channelSamples ch beats) := by
  induction beats generalizing s with
  | nil => exact ⟨s, [], rfl, h, fun ch => ⟨rfl, rfl⟩⟩
  | cons i beats ih =>
    obtain ⟨u, hx⟩ := h.exec_exists i
    obtain ⟨hpu, hcu, hu⟩ := exec_beat_digitizes (hb i List.mem_cons_self) hp hx
    obtain ⟨t, es, hrun, ht, hd⟩ := ih (h.exec hx) hpu fun j hj => hb j (List.mem_cons_of_mem i hj)
    rw [hcu] at hd
    refine ⟨t, u.events ++ es, by simp only [runOps, hx, hrun], ht, fun ch => ?_⟩
    have hs : channelSamples ch (i :: beats) = (sampleOf? ch i).toList ++ channelSamples ch beats := by
      cases hv : sampleOf? ch i <;> simp [channelSamples, hv]
    rw [hs]
    exact (hu ch).append (hd ch)

/-- A run so far: after the `START` of a legal configuration both channels are digitized from their reset values. -/
theorem runOps_start_digitizes (beats : List Instr) {s : State} (hp : s.phase ≠ .run) (hl : s.cfg.legal = true)
    (hb : ∀ i ∈ beats, isBeat i = true ∨ i = .nop) :
    ∃ t es, runOps (.start :: beats) s = .next (t, es) ∧ t.Inv
      ∧ ∀ ch, DigitizedBy s.cfg ch .reset (t.cmp ch) es (channelSamples ch beats) := by
  obtain ⟨t, es, hrun, ht, hd⟩ := runOps_beats_digitizes beats
    (s := { s.quiet.clearRun with phase := .run }) (inv_clearRun s.quiet (.inl rfl) fun _ => hl) rfl hb
  refine ⟨t, es, runOps_cons_of_silent (execStart_of_legal hp hl) rfl hrun, ht, fun ch => ?_⟩
  cases ch <;> exact hd _

/-! ## The loop of `digitize` -/

/-- The level after a later sample, as the loop of `digitize` computes it (R70). -/
def nextLevel (lo hi : SampleT) (b : Bool) (v : SampleT) : Bool :=
  if hi ≤ v ∧ b = false then true else if v ≤ lo ∧ b = true then false else b

theorem digitizeFrom_cons (lo hi v : SampleT) (b : Bool) (vs : List SampleT) : digitizeFrom lo hi b (v :: vs)
    = nextLevel lo hi b v :: digitizeFrom lo hi (nextLevel lo hi b v) vs := rfl

/-- The comparator's rule for a later sample is the loop's, and an undefined level stays so. -/
theorem cmpLater_bit? (lo hi v : SampleT) (hs : Hyst) :
    (cmpLater lo hi hs v).bit? = hs.bit?.map fun b => nextLevel lo hi b v := by
  cases hs with
  | undet => rfl
  | low => by_cases hh : hi ≤ v <;> simp [nextLevel, hh, Hyst.bit?]
  | high => by_cases hl : v ≤ lo <;> simp [nextLevel, hl, Hyst.bit?]

/-- After the first sample the levels are the loop of `digitize`, or none if the first level is undefined. -/
theorem CmpRegs.levels_later (c : CfgRegs) {r : CmpRegs} (hn : r.n ≠ 0) (vs : List SampleT) : r.levels c vs
    = r.hs.bit?.elim [] fun b => digitizeFrom c.thrLow c.thrHigh b vs := by
  induction vs generalizing r with
  | nil => cases r.hs.bit? <;> rfl
  | cons v vs ih =>
    have hv : (r.sample c v).hs.bit? = r.hs.bit?.map fun b => nextLevel c.thrLow c.thrHigh b v := by
      simp only [CmpRegs.sample, cmpNext_later hn, cmpLater_bit?]
    rw [CmpRegs.levels, ih (Nat.succ_ne_zero r.n), hv]
    cases r.hs.bit? <;> rfl

/-- A later sample leaves an undefined level undefined, and a defined one defined. -/
theorem CmpRegs.foldl_sample_undet (c : CfgRegs) {r : CmpRegs} (hn : r.n ≠ 0) (vs : List SampleT) :
    (vs.foldl (CmpRegs.sample c) r).hs = .undet ↔ r.hs = .undet := by
  induction vs generalizing r with
  | nil => rfl
  | cons v vs ih =>
    rw [List.foldl_cons, ih (Nat.succ_ne_zero r.n)]
    simp only [CmpRegs.sample, cmpNext_later hn]
    cases r.hs with
    | undet => rfl
    | low => by_cases hh : c.thrHigh ≤ v <;> simp [hh]
    | high => by_cases hl : v ≤ c.thrLow <;> simp [hl]

/-- A channel whose level is undefined has shown none since its reset. -/
theorem CmpRegs.levels_of_undet (c : CfgRegs) {vs : List SampleT}
    (h : (vs.foldl (CmpRegs.sample c) .reset).hs = .undet) : CmpRegs.reset.levels c vs = [] := by
  cases vs with
  | nil => rfl
  | cons v vs =>
    have hn : (CmpRegs.reset.sample c v).n ≠ 0 := Nat.succ_ne_zero _
    rw [CmpRegs.levels, CmpRegs.levels_later c hn, (CmpRegs.foldl_sample_undet c hn vs).mp h]
    rfl

/-- `digitize` on the samples of a channel from its reset: its levels, or none with a first level that is undefined and
so an undefined level at the end. -/
theorem digitize_eq (c : CfgRegs) (vs : List SampleT) : digitize c.thrLow c.thrHigh vs
    = if vs ≠ [] ∧ (vs.foldl (CmpRegs.sample c) .reset).hs = .undet then .error .ambig
      else .ok (CmpRegs.reset.levels c vs) := by
  cases vs with
  | nil => rfl
  | cons v vs =>
    have hfirst : (CmpRegs.reset.sample c v).hs = cmpFirst c.thrLow c.thrHigh v := rfl
    have hn : (CmpRegs.reset.sample c v).n ≠ 0 := Nat.succ_ne_zero _
    simp only [List.foldl_cons, CmpRegs.foldl_sample_undet c hn, CmpRegs.levels, CmpRegs.levels_later c hn, hfirst]
    by_cases hh : c.thrHigh ≤ v
    · simp [digitize, cmpFirst, hh, Hyst.bit?]
    · by_cases hl : v ≤ c.thrLow <;> simp [digitize, cmpFirst, hh, hl, Hyst.bit?]

/-- The ambiguity flag of a channel that has taken the samples `vs` from its reset. -/
theorem DigitizedBy.flag_iff {c : CfgRegs} {ch : Chan} {t : State} {es : List Event} {vs : List SampleT}
    (h : DigitizedBy c ch .reset (t.cmp ch) es vs) (ht : t.Inv) :
    t.flags.get ch.ambigFlag = true ↔ vs ≠ [] ∧ (vs.foldl (CmpRegs.sample c) .reset).hs = .undet := by
  have hfits : (t.cmp ch).Fits (t.flags.get ch.ambigFlag) := by simpa using ht.sampled_quiet.fits ch
  rw [← h.regs, hfits.undet, ← List.length_pos_iff, ← h.n_eq]
  exact ⟨fun hf => ⟨hfits.counted hf, .inr hf⟩, fun ⟨hpos, hf⟩ => hf.resolve_left hpos.ne'⟩

/-- Settles O45: the levels of a run are those of `digitize`, and the flag tells its error. -/
theorem runDigitizesItsChannels : Obligations.RunDigitizesItsChannels := by
  intro ch beats s hp hl hb
  obtain ⟨t, es, hrun, ht, hd⟩ := runOps_start_digitizes beats hp hl hb
  refine ⟨t, es, hrun, (hd ch).n_eq, ?_⟩
  rw [digitize_eq, (hd ch).bits, ← Bool.not_eq_true, (hd ch).flag_iff ht]
  split
  case isTrue hu => exact ⟨nofun, fun _ _ => ⟨CmpRegs.levels_of_undet s.cfg hu.2, hu⟩⟩
  case isFalse hu => exact ⟨fun q hq => ⟨Except.ok.inj hq, hu⟩, nofun⟩

/-! ## Consecutive levels -/

/-- Each level of the loop of `digitize` is `nextLevel` of the level before it and of the sample it belongs to. -/
theorem getElem?_digitizeFrom {lo hi v : SampleT} {b₀ b b' : Bool} {vs : List SampleT} {k : Nat}
    (hb : (b₀ :: digitizeFrom lo hi b₀ vs)[k]? = some b) (hb' : (digitizeFrom lo hi b₀ vs)[k]? = some b')
    (hv : vs[k]? = some v) : b' = nextLevel lo hi b v := by
  induction k generalizing b₀ vs with
  | zero =>
    cases vs with
    | nil => simp at hv
    | cons w vs => simp_all [digitizeFrom_cons]
  | succ k ih =>
    cases vs with
    | nil => simp at hv
    | cons w vs => exact ih hb hb' hv

/-- The loop changes a level only across the opposite threshold, and always then (R79). -/
theorem nextLevel_crosses {lo hi v : SampleT} {b b' : Bool} (h : b' = nextLevel lo hi b v) :
    (b = false → b' = true → hi ≤ v) ∧ (b = true → b' = false → v ≤ lo) ∧ (b = false → hi ≤ v → b' = true)
      ∧ (b = true → v ≤ lo → b' = false) := by
  subst h
  cases b <;> simp [nextLevel]

/-- Settles O44: the levels are those of `digitize`, whose loop is `nextLevel`. -/
theorem deadBandIsStable : Obligations.DeadBandIsStable := by
  intro ch beats s t es hp hl hb hrun k b b' v hk hk' hv
  obtain ⟨t', es', hrun', -, hd⟩ := runOps_start_digitizes beats hp hl hb
  cases hrun.symm.trans hrun'
  rw [(hd ch).bits] at hk hk'
  generalize channelSamples ch beats = vs at hk hk' hv
  cases vs with
  | nil => simp at hv
  | cons w vs =>
    rw [CmpRegs.levels, CmpRegs.levels_later s.cfg (Nat.succ_ne_zero _)] at hk hk'
    cases hw : (CmpRegs.reset.sample s.cfg w).hs.bit? with
    | none => simp [hw] at hk
    | some b₀ =>
      rw [hw] at hk hk'
      exact nextLevel_crosses (getElem?_digitizeFrom hk hk' hv)

end Sys2Proof.Machine
end

section
/-! PROOFS. 41_clock_edge_detector.md: the rule of the edge detector, and the `EDGE` events of a run. While no flag is
set every beat is a paired one with the gate open (`OpenBeat`), so the edge detector steps through the clock levels that
the `DIG` events show and counts their qualifying edges (`EdgRegs.edges`). -/

namespace Sys2Proof.Machine

/-! ## The edge detector -/

/-- The comparators do not reach the edge detector. -/
@[simp] theorem edgeSeen_afterComparators (c d : SampleT) (s : State) (qc : Bool) :
    edgeSeen (afterComparators c d s) qc = edgeSeen s qc := by
  simp [edgeSeen, afterComparators]

theorem edge_not_mem_afterComparators (c d : SampleT) (s : State) :
    Event.edge ∉ (afterComparators c d s).events := by
  simp [afterComparators_events]

/-- The first paired beat of a run has no edge (R89). -/
theorem edgeSeen_of_not_valid {s : State} (h : s.edg.cprevValid = false) (qc : Bool) : edgeSeen s qc = false := by
  simp [edgeSeen, h]

/-- Settles O33: without a valid previous level the case of `exec` that emits `EDGE` is shut out. -/
theorem edgeDetectorFollowsItsRule : Obligations.EdgeDetectorFollowsItsRule := by
  refine ⟨by decide, fun qc s => ⟨rfl, ?_⟩, fun c d s t hv h => ?_⟩
  · rw [edgStep_eq]
    cases edgeSeen s qc <;> rfl
  · have hnBits : (afterComparators c d s).nBits = s.nBits := (held_afterComparators c d s).nBits
    cases exec_cases h with
    | protocol => exact ⟨List.not_mem_nil, rfl⟩
    | gateClosed | noEdge => exact ⟨edge_not_mem_afterComparators c d s, hnBits⟩
    | edge _ _ _ qc _ _ _ _ _ _ he => simp [edgeSeen_of_not_valid hv] at he

/-! ## Beats that leave no flag set -/

/-- A paired beat whose gate is open, on the levels `qc` and `qd`: the step of the edge detector, and the bit latched at
an edge. -/
structure OpenBeat (qc qd : Bool) (s t : State) : Prop where
  cfg : t.cfg = s.cfg
  edg : t.edg = ⟨qc, true⟩
  nBits : t.nBits = s.nBits + (edgeSeen s qc).toNat
  events : t.events = .dig .clk qc :: .dig .dat qd ::
    bif edgeSeen s qc then .edge :: .bit qd :: groupEvents qd s else []

/-- With both levels defined a paired beat shows both. -/
theorem afterComparators_events_of_levels {c d : SampleT} {s : State} {qc qd : Bool}
    (hc : (afterComparators c d s).clk.hs.bit? = some qc) (hd : (afterComparators c d s).dat.hs.bit? = some qd) :
    (afterComparators c d s).events = [.dig .clk qc, .dig .dat qd] := by
  rw [afterComparators_events, hc, hd]
  rfl

@[simp] theorem groupEvents_afterComparators (b : Bool) (c d : SampleT) (s : State) :
    groupEvents b (afterComparators c d s) = groupEvents b s := by
  simp [groupEvents, afterComparators]

/-- A beat or a `NOP` after which no flag is set: an unpaired beat and a closed gate are shut out. -/
theorem exec_beat_of_no_flag {i : Instr} {s t : State} (hi : isBeat i = true ∨ i = .nop) (hx : exec i s = .next t)
    (ha : t.flags.any = false) : t = s.quiet ∨ ∃ qc qd, OpenBeat qc qd s t := by
  cases exec_cases hx with
  | idle => exact .inl rfl
  | protocol | clockOnly | dataOnly => simp at ha
  | opened | notOpened | closed | written => simp [isBeat, sampleOf?] at hi
  | gateClosed c d _ _ _ hf => simp [hf] at ha
  | noEdge c d _ qc qd _ _ _ hc hd he =>
    rw [edgeSeen_afterComparators] at he
    refine .inr ⟨qc, qd, afterComparators_cfg c d s, rfl, ?_, ?_⟩
    · simpa [he] using (held_afterComparators c d s).nBits
    · simpa [he] using afterComparators_events_of_levels hc hd
  | edge c d _ qc qd _ _ _ hc hd he =>
    rw [edgeSeen_afterComparators] at he
    refine .inr ⟨qc, qd, afterComparators_cfg c d s, rfl, ?_, ?_⟩
    · simp [edgeBeat, he, (held_afterComparators c d s).nBits]
    · simp [edgeBeat, he, afterComparators_events_of_levels hc hd]

/-! ## Sequences of operations -/

/-- A sequence with a next state: the first operation, then the rest. -/
theorem runOps_cons_next {i : Instr} {ops : List Instr} {s t : State} {es : List Event}
    (h : runOps (i :: ops) s = .next (t, es)) :
    ∃ u es', exec i s = .next u ∧ runOps ops u = .next (t, es') ∧ es = u.events ++ es' := by
  rw [runOps] at h
  cases hx : exec i s with
  | fault | refused => simp [hx] at h
  | next u =>
    cases hr : runOps ops u with
    | fault | refused => simp [hx, hr] at h
    | next p =>
      simp only [hx, hr, Host.Outcome.next.injEq, Prod.mk.injEq] at h
      obtain ⟨rfl, rfl⟩ := h
      exact ⟨u, p.2, rfl, hr, rfl⟩

/-- A sequence with a next state: all operations but the last, then the last. -/
theorem runOps_concat_next {ops : List Instr} {i : Instr} {s t : State} {es : List Event}
    (h : runOps (ops ++ [i]) s = .next (t, es)) :
    ∃ u es', runOps ops s = .next (u, es') ∧ exec i u = .next t ∧ es = es' ++ t.events := by
  induction ops generalizing s es with
  | nil =>
    obtain ⟨u, es', hx, hr, rfl⟩ := runOps_cons_next h
    cases hr
    exact ⟨s, [], rfl, hx, by simp⟩
  | cons j ops ih =>
    obtain ⟨v, es', hx, hr, rfl⟩ := runOps_cons_next h
    obtain ⟨u, es'', hops, hi, rfl⟩ := ih hr
    exact ⟨u, v.events ++ es'', by simp only [runOps, hx, hops], hi, by simp⟩

theorem ne_start_of_beat {i : Instr} (hi : isBeat i = true ∨ i = .nop) : i ≠ .start := by
  rintro rfl
  simp [isBeat, sampleOf?] at hi

/-- No operation of a sequence without `START` clears a flag. -/
theorem runOps_flags_le {ops : List Instr} {s t : State} {es : List Event} (hops : ∀ i ∈ ops, i ≠ .start)
    (h : runOps ops s = .next (t, es)) : s.flags.le t.flags := by
  induction ops generalizing s es with
  | nil =>
    cases h
    exact Flags.le_refl _
  | cons i ops ih =>
    obtain ⟨hi, hrest⟩ := List.forall_mem_cons.mp hops
    obtain ⟨u, es', hx, hr, -⟩ := runOps_cons_next h
    exact Flags.le_trans (flagsAreSticky i s u hx fun hs => absurd hs hi) (ih hrest hr)

/-! ## Counting the edges -/

/-- The number of edges the detector sees at the clock levels, one a beat, from its registers on. -/
def EdgRegs.edges (r : Bool) : EdgRegs → List Bool → Nat
  | _, [] => 0
  | e, q :: qs => (e.cprevValid && edgeQ e.cprev q r).toNat + edges r ⟨q, true⟩ qs

/-- Behind a valid previous level the edges are the qualifying pairs of consecutive levels. -/
theorem EdgRegs.edges_of_valid (r p : Bool) (qs : List Bool) : EdgRegs.edges r ⟨p, true⟩ qs
    = ((List.range qs.length).filter fun i => edgeQ ((p :: qs).getD i false) (qs.getD i false) r).length := by
  induction qs generalizing p with
  | nil => rfl
  | cons q qs ih =>
    rw [EdgRegs.edges, ih, List.length_cons, List.range_succ_eq_map, List.filter_cons]
    cases hq : edgeQ p q r <;> simp [hq, List.filter_map, Function.comp_def, Nat.add_comm]

/-- From the reset of the detector on the edges are those of R92. -/
theorem EdgRegs.edges_reset (r : Bool) (q : List Bool) : EdgRegs.edges r .reset q
    = ((List.range (q.length - 1)).filter fun i => edgeQ (q.getD i false) (q.getD (i + 1) false) r).length := by
  cases q with
  | nil => rfl
  | cons b qs =>
    rw [EdgRegs.edges, EdgRegs.edges_of_valid]
    simp [EdgRegs.reset]

@[simp] theorem filterMap_edge?_groupEvents (b : Bool) (s : State) :
    (groupEvents b s).filterMap Event.edge? = [] := by
  by_cases hg : s.cnt + 1 = s.cfg.groupSize
  · cases hx : s.cfg.asHex <;> simp [groupEvents, hg, hx, Event.edge?]
  · simp [groupEvents, hg]

section
variable {qc qd : Bool} {s t : State} (h : OpenBeat qc qd s t)
include h

theorem OpenBeat.clkLevels : t.events.filterMap (Event.digBit? .clk) = [qc] := by
  rw [h.events]
  cases edgeSeen s qc with
  | false => rfl
  | true => exact congrArg (qc :: ·) (filterMap_digBit?_groupEvents .clk qd s)

theorem OpenBeat.edgeCount : (t.events.filterMap Event.edge?).length = (edgeSeen s qc).toNat := by
  rw [h.events]
  cases edgeSeen s qc with
  | false => rfl
  | true => exact congrArg (List.length ∘ (() :: ·)) (filterMap_edge?_groupEvents qd s)

end

/-- Beats and `NOP`s that leave no flag set: one `EDGE` event for each edge the detector sees in the clock levels, and
one bit for each `EDGE` event. -/
theorem runOps_beats_edges {beats : List Instr} {s t : State} {es : List Event}
    (hb : ∀ i ∈ beats, isBeat i = true ∨ i = .nop) (hrun : runOps beats s = .next (t, es))
    (ha : t.flags.any = false) :
    (es.filterMap Event.edge?).length = s.edg.edges s.cfg.risingEdge (es.filterMap (Event.digBit? .clk))
      ∧ t.nBits = s.nBits + (es.filterMap Event.edge?).length := by
  induction beats generalizing s es with
  | nil =>
    cases hrun
    exact ⟨rfl, rfl⟩
  | cons i beats ih =>
    obtain ⟨hi, hrest⟩ := List.forall_mem_cons.mp hb
    obtain ⟨u, es', hx, hr, rfl⟩ := runOps_cons_next hrun
    have hle : u.flags.le t.flags := runOps_flags_le (fun j hj => ne_start_of_beat (hrest j hj)) hr
    obtain ⟨hedges, hbits⟩ := ih hrest hr
    obtain rfl | ⟨qc, qd, hu⟩ := exec_beat_of_no_flag hi hx (Flags.any_eq_false_of_le hle ha)
    · exact ⟨hedges, hbits⟩
    · rw [List.filterMap_append, List.filterMap_append, List.length_append, hu.edgeCount, hu.clkLevels]
      refine ⟨?_, by rw [hbits, hu.nBits, Nat.add_assoc]⟩
      rw [hedges, hu.edg, hu.cfg]
      rfl

/-- Every flag has a cause of its own (60_exceptions.md R168). -/
theorem Flags.any_of_cause_none {f : Flags} (h : f.cause = .none) : f.any = false := by
  unfold Flags.cause at h
  split_ifs at h
  simp_all [Flags.any]

/-- An `END` that leaves no flag set closes the run: its one event is the `FIN`, and the bits stand. -/
theorem exec_endRun_of_no_flag {s t : State} (hx : exec .endRun s = .next t) (ha : t.flags.any = false) :
    s.flags.any = false ∧ t.events = [.fin t.flags.cause] ∧ t.nBits = s.nBits := by
  have hs : s.flags.any = false := Flags.any_eq_false_of_le (flagsAreSticky .endRun s t hx nofun) ha
  cases exec_cases hx with
  | protocol => simp at ha
  | closed => exact ⟨hs, rfl, rfl⟩

/-- Settles O47: the beats between `START` and `END` start from the reset of the detector, and neither `START` nor `END`
shows a level or an edge. -/
theorem edgesAreTheQualifyingEdges : Obligations.EdgesAreTheQualifyingEdges := by
  rintro beats s t es q hp hl hb hrun hcause rfl
  obtain ⟨v, es, hstart, hops, rfl⟩ := runOps_cons_next hrun
  obtain ⟨u, es, hbeats, hend, rfl⟩ := runOps_concat_next hops
  obtain ⟨ha, hev, hnBits⟩ := exec_endRun_of_no_flag hend (Flags.any_of_cause_none hcause)
  cases hstart.symm.trans (execStart_of_legal hp hl)
  obtain ⟨hedges, hbits⟩ := runOps_beats_edges hb hbeats ha
  rw [State.clearRun_nBits, Nat.zero_add] at hbits
  have hedge : [Event.fin t.flags.cause].filterMap Event.edge? = [] := rfl
  have hdig : [Event.fin t.flags.cause].filterMap (Event.digBit? .clk) = [] := rfl
  simp only [State.clearRun_events, State.quiet_events, List.nil_append, List.filterMap_append, hev, hedge, hdig,
    List.append_nil, hnBits]
  exact ⟨hedges.trans (EdgRegs.edges_reset s.cfg.risingEdge _), hbits.symm⟩

end Sys2Proof.Machine
end

section
/-! PROOFS. 42_data_latch.md: the level that a beat latches, and the `BIT` events of a run. Paired beats set no flag but
an ambiguity flag, so in the run of R100 every beat has its gate open (`OpenBeat`), and each shows one level of either
channel and the bit it latches: the loop of `latch` (`EdgRegs.latched`), level by level. -/

namespace Sys2Proof.Machine

/-! ## The latched level -/

theorem bit_not_mem_afterComparators (c d : SampleT) (s : State) (b : Bool) :
    Event.bit b ∉ (afterComparators c d s).events := by
  simp [afterComparators_events]

theorem afterComparators_dat_hs (c d : SampleT) (s : State) :
    (afterComparators c d s).dat.hs = cmpNext s.cfg.thrLow s.cfg.thrHigh s.dat d := by
  simp [afterComparators]

theorem afterComparators_lbit (c d : SampleT) (s : State) : (afterComparators c d s).lbit = s.lbit := by
  simp [afterComparators]

/-- Settles O34: of the three cases of a paired beat in `RUN` one emits `EDGE`, and it latches the level that the data
comparator has just taken; behind the comparators the other two move the edge detector at most. -/
theorem latchTakesTheLevelOfItsBeat : Obligations.LatchTakesTheLevelOfItsBeat := by
  intro c d s t hp hx
  have hnBits : (afterComparators c d s).nBits = s.nBits := (held_afterComparators c d s).nBits
  cases exec_cases hx with
  | protocol _ _ h => simp [isProtocolFault, hp] at h
  | gateClosed | noEdge =>
    exact ⟨afterComparators_dat_hs c d s, fun he => absurd he (edge_not_mem_afterComparators c d s),
      fun _ => ⟨bit_not_mem_afterComparators c d s, afterComparators_lbit c d s, hnBits⟩⟩
  | edge _ _ _ qc qd _ _ _ _ hd =>
    have hedge : Event.edge ∈ (edgeBeat qc qd (afterComparators c d s)).events := by simp [edgeBeat]
    have hbit : Event.bit qd ∈ (edgeBeat qc qd (afterComparators c d s)).events := by simp [edgeBeat]
    exact ⟨afterComparators_dat_hs c d s, fun _ => ⟨qd, hd, hbit, rfl, congrArg (· + 1) hnBits⟩,
      fun he => absurd hedge he⟩

/-! ## Flags of paired beats -/

theorem isBeat_of_paired {i : Instr} (hi : isPaired i = true ∨ i = .nop) : isBeat i = true ∨ i = .nop :=
  hi.imp_left fun h => by simp [isBeat, (Bool.and_eq_true_iff.mp h).1]

section
variable {e : ErrFlag} (he : ∀ ch : Chan, ch.ambigFlag ≠ e)
include he

/-- The comparators set no flag but an ambiguity flag. -/
theorem afterComparators_flags_get (c d : SampleT) (s : State) :
    (afterComparators c d s).flags.get e = s.flags.get e := by
  simp [afterComparators, cmpStep_flags_get, beq_false_of_ne (he _)]

/-- Neither does a paired beat or a `NOP` in a run. -/
theorem exec_paired_flags_get {i : Instr} {s t : State} (hi : isPaired i = true ∨ i = .nop) (hp : s.phase = .run)
    (hx : exec i s = .next t) : t.flags.get e = s.flags.get e := by
  cases exec_cases hx with
  | idle => rfl
  | protocol _ _ h => simp [hp, isProtocolFault_of_beat (isBeat_of_paired hi)] at h
  | opened | notOpened | closed | written | clockOnly | dataOnly => simp [isPaired, sampleOf?] at hi
  | gateClosed c d | noEdge c d | edge c d => exact afterComparators_flags_get he c d s

theorem runOps_paired_flags_get {beats : List Instr} {s t : State} {es : List Event}
    (hb : ∀ i ∈ beats, isPaired i = true ∨ i = .nop) (hp : s.phase = .run)
    (hrun : runOps beats s = .next (t, es)) : t.flags.get e = s.flags.get e := by
  induction beats generalizing s es with
  | nil =>
    cases hrun
    rfl
  | cons i beats ih =>
    obtain ⟨hi, hrest⟩ := List.forall_mem_cons.mp hb
    obtain ⟨u, es', hx, hr, -⟩ := runOps_cons_next hrun
    obtain ⟨hpu, -, -⟩ := exec_beat_digitizes (isBeat_of_paired hi) hp hx
    rw [ih hrest hpu hr, exec_paired_flags_get he hi hp hx]

end

/-- After paired beats in a run that began without a flag and met no ambiguous sample, no flag is set. -/
theorem runOps_paired_any {beats : List Instr} {s t : State} {es : List Event}
    (hb : ∀ i ∈ beats, isPaired i = true ∨ i = .nop) (hp : s.phase = .run) (hs : s.flags.any = false)
    (hrun : runOps beats s = .next (t, es)) (ht : ∀ ch : Chan, t.flags.get ch.ambigFlag = false) :
    t.flags.any = false := by
  by_contra ha
  obtain ⟨e, he⟩ := t.flags.any_iff.mp (by simpa using ha)
  have hne (ch : Chan) : ch.ambigFlag ≠ e := by
    rintro rfl
    simp [ht ch] at he
  rw [runOps_paired_flags_get hne hb hp hrun, Flags.get_of_any_eq_false hs e] at he
  cases he

/-! ## The loop of `latch` -/

/-- The bits latched at the levels of the two channels, one of each a beat, from the registers of the edge detector
on. -/
def EdgRegs.latched (r : Bool) : EdgRegs → List Bool → List Bool → List Bool
  | e, q :: qs, d :: ds =>
    (bif e.cprevValid && edgeQ e.cprev q r then [d] else []) ++ latched r ⟨q, true⟩ qs ds
  | _, _, _ => []

/-- Behind a valid previous level they are those of the loop of `latch`. -/
theorem EdgRegs.latched_of_valid (r p : Bool) (qs ds : List Bool) :
    EdgRegs.latched r ⟨p, true⟩ qs ds = latchFrom r p qs ds := by
  induction qs generalizing p ds with
  | nil => rfl
  | cons q qs ih =>
    cases ds with
    | nil => rfl
    | cons d ds =>
      rw [EdgRegs.latched, latchFrom, ih]
      cases hq : edgeQ p q r <;> simp

/-- From the reset of the edge detector on they are those of `latch` (R85). -/
theorem EdgRegs.latch_eq_latched (r : Bool) {qs ds : List Bool} (h : qs.length = ds.length) :
    latch qs ds r = .ok (EdgRegs.latched r .reset qs ds) := by
  unfold latch
  rw [if_neg (not_not.mpr h)]
  cases qs with
  | nil => rfl
  | cons q qs =>
    cases ds with
    | nil => simp at h
    | cons d ds => exact congrArg Except.ok (EdgRegs.latched_of_valid r q qs ds).symm

/-! ## The bits of a run -/

@[simp] theorem filterMap_bit?_groupEvents (b : Bool) (s : State) : (groupEvents b s).filterMap Event.bit? = [] := by
  by_cases hg : s.cnt + 1 = s.cfg.groupSize
  · cases hx : s.cfg.asHex <;> simp [groupEvents, hg, hx, Event.bit?]
  · simp [groupEvents, hg]

section
variable {qc qd : Bool} {s t : State} (h : OpenBeat qc qd s t)
include h

theorem OpenBeat.datLevels : t.events.filterMap (Event.digBit? .dat) = [qd] := by
  rw [h.events]
  cases edgeSeen s qc with
  | false => rfl
  | true => exact congrArg (qd :: ·) (filterMap_digBit?_groupEvents .dat qd s)

theorem OpenBeat.bits : t.events.filterMap Event.bit? = bif edgeSeen s qc then [qd] else [] := by
  rw [h.events]
  cases edgeSeen s qc with
  | false => rfl
  | true => exact congrArg (qd :: ·) (filterMap_bit?_groupEvents qd s)

end

/-- Beats and `NOP`s that leave no flag set: the channels show equally many levels, the `BIT` events are the bits
latched at them, and `n_bits` counts these events. -/
theorem runOps_beats_latches {beats : List Instr} {s t : State} {es : List Event}
    (hb : ∀ i ∈ beats, isBeat i = true ∨ i = .nop) (hrun : runOps beats s = .next (t, es))
    (ha : t.flags.any = false) :
    (es.filterMap (Event.digBit? .clk)).length = (es.filterMap (Event.digBit? .dat)).length
      ∧ es.filterMap Event.bit? = s.edg.latched s.cfg.risingEdge (es.filterMap (Event.digBit? .clk))
          (es.filterMap (Event.digBit? .dat))
      ∧ t.nBits = s.nBits + (es.filterMap Event.bit?).length := by
  induction beats generalizing s es with
  | nil =>
    cases hrun
    exact ⟨rfl, rfl, rfl⟩
  | cons i beats ih =>
    obtain ⟨hi, hrest⟩ := List.forall_mem_cons.mp hb
    obtain ⟨u, es', hx, hr, rfl⟩ := runOps_cons_next hrun
    have hle : u.flags.le t.flags := runOps_flags_le (fun j hj => ne_start_of_beat (hrest j hj)) hr
    obtain ⟨hlen, hbits, hnBits⟩ := ih hrest hr
    obtain rfl | ⟨qc, qd, hu⟩ := exec_beat_of_no_flag hi hx (Flags.any_eq_false_of_le hle ha)
    · exact ⟨hlen, hbits, hnBits⟩
    · simp only [List.filterMap_append, hu.clkLevels, hu.datLevels, hu.bits]
      refine ⟨congrArg (· + 1) hlen, ?_, ?_⟩
      · rw [hbits, hu.edg, hu.cfg]
        rfl
      · rw [hnBits, hu.nBits]
        cases edgeSeen s qc <;> simp [Nat.add_comm, Nat.add_left_comm]

/-- `END` shows at most a `FIN`, and the bits stand. -/
theorem exec_endRun_shows {β : Type} (f : Event → Option β) (hf : ∀ c, f (.fin c) = none) {s t : State}
    (hx : exec .endRun s = .next t) : t.events.filterMap f = [] ∧ t.nBits = s.nBits := by
  cases exec_cases hx with
  | protocol => exact ⟨rfl, rfl⟩
  | closed => exact ⟨by simp [hf], rfl⟩

/-- Settles O46: the beats between `START` and `END` start from the reset of the edge detector and leave no flag set,
and neither `START` nor `END` shows a level or a bit. -/
theorem runLatchesItsBits : Obligations.RunLatchesItsBits := by
  intro beats s t es hp hl hb hrun hclk hdat
  obtain ⟨v, es, hstart, hops, rfl⟩ := runOps_cons_next hrun
  obtain ⟨u, es, hbeats, hend, rfl⟩ := runOps_concat_next hops
  cases hstart.symm.trans (execStart_of_legal hp hl)
  have hle : u.flags.le t.flags := flagsAreSticky .endRun u t hend nofun
  have hclear (ch : Chan) : t.flags.get ch.ambigFlag = false := by
    cases ch with
    | clk => exact hclk
    | dat => exact hdat
  have hambig (ch : Chan) : u.flags.get ch.ambigFlag = false :=
    Bool.eq_false_iff.mpr fun hch => Bool.eq_false_iff.mp (hclear ch) (hle _ hch)
  have hany : u.flags.any = false := runOps_paired_any hb rfl rfl hbeats hambig
  obtain ⟨hlen, hbits, hnBits⟩ := runOps_beats_latches (fun i hi => isBeat_of_paired (hb i hi)) hbeats hany
  obtain ⟨hbit, hn⟩ := exec_endRun_shows Event.bit? (fun _ => rfl) hend
  have hdig (ch : Chan) := (exec_endRun_shows (Event.digBit? ch) (fun _ => rfl) hend).1
  simp only [State.clearRun_events, State.quiet_events, List.nil_append, List.filterMap_append, hbit, hdig,
    List.append_nil, hn]
  rw [State.clearRun_nBits, Nat.zero_add] at hnBits
  exact ⟨(EdgRegs.latch_eq_latched s.cfg.risingEdge hlen).trans (congrArg Except.ok hbits.symm), hnBits⟩

end Sys2Proof.Machine
end

section
/-! PROOFS. 43_bit_shifter.md: what `SHIFT_IN` computes, and that the bits of a group through it leave the value of the
chunk. The value of a chunk is the number whose binary digits, the lowest first, are the bits in the order of
`MSB_FIRST`, so Mathlib's `Nat.ofDigits` gives its bound and what one bit more does to it. -/

namespace Sys2Proof.Machine

/-! ## `SHIFT_IN` -/

/-- Settles O36: the sums are `shiftIn_eq`, and a group of `g` bits has room for `cnt + 1` of them. -/
theorem shiftInNeverOverflows : Obligations.ShiftInNeverOverflows := fun _ _ _ b hsh hcnt =>
  ⟨shiftIn_eq true b hsh, shiftIn_eq false b hsh, fun m =>
    ⟨shiftIn_lt hsh m b, (shiftIn_lt hsh m b).trans_le (Nat.pow_le_pow_right Nat.two_pos hcnt)⟩⟩

/-- The first bit of a group is the partial value, in both orders (R109). -/
theorem shiftIn_empty (m b : Bool) : shiftIn m 0 0 b = b.toNat := by
  rw [shiftIn_eq m b Nat.one_pos]
  cases m <;> simp

/-! ## The value of a chunk -/

/-- The sum of R105 is the number with the given binary digits, shifted by the first weight. -/
theorem weightedSum_eq (j : Nat) (a : List Bool) : weightedSum j a = 2 ^ j * Nat.ofDigits 2 (a.map Bool.toNat) := by
  induction a generalizing j with
  | nil => simp [weightedSum]
  | cons b a ih =>
    rw [weightedSum, ih, List.map_cons, Nat.ofDigits_cons]
    ring

theorem chunkValue_eq_ofDigits (c : List Bool) (m : Bool) :
    chunkValue c m = Nat.ofDigits 2 ((if m then c.reverse else c).map Bool.toNat) := by
  rw [chunkValue, weightedSum_eq, Nat.pow_zero, Nat.one_mul]

/-- A chunk of `g` bits has a value below `2^g`. -/
theorem chunkValue_lt (c : List Bool) (m : Bool) : chunkValue c m < 2 ^ c.length := by
  have hdigit : ∀ x ∈ (if m then c.reverse else c).map Bool.toNat, x < 2 := by
    simp only [List.mem_map]
    rintro _ ⟨b, -, rfl⟩
    exact b.toNat_lt
  rw [chunkValue_eq_ofDigits]
  refine (Nat.ofDigits_lt_base_pow_length Nat.one_lt_two hdigit).trans_eq ?_
  cases m <;> simp

/-- One bit more goes into the value as `SHIFT_IN` takes it in (R106). -/
theorem chunkValue_concat (c : List Bool) (b m : Bool) :
    chunkValue (c ++ [b]) m = shiftIn m (chunkValue c m) c.length b := by
  rw [shiftIn_eq m b (chunkValue_lt c m)]
  simp only [chunkValue_eq_ofDigits]
  cases m with
  | true => simp [Nat.ofDigits_cons, Nat.add_comm]
  | false => simp [Nat.ofDigits_append, Nat.mul_comm]

/-- Behind the bits `p` of a group, the partial value is theirs, and the bits `c` leave the value of all. -/
theorem shiftAll_chunkValue (m : Bool) (p c : List Bool) :
    shiftAll m (chunkValue p m) p.length c = chunkValue (p ++ c) m := by
  induction c generalizing p with
  | nil => rw [shiftAll, List.append_nil]
  | cons b c ih =>
    have h := ih (p ++ [b])
    rw [chunkValue_concat, List.length_append, List.append_assoc] at h
    exact h

/-- Settles O37: the empty chunk is the group with no bit yet. -/
theorem shiftingGivesTheChunkValue : Obligations.ShiftingGivesTheChunkValue := by
  intro c m
  cases m <;> exact shiftAll_chunkValue _ [] c

/-- A chunk of `g` equal bits has the value 0 or `2^g - 1`. -/
theorem chunkValue_replicate (g : Nat) (b m : Bool) :
    chunkValue (List.replicate g b) m = b.toNat * (2 ^ g - 1) := by
  have hsum : chunkValue (List.replicate g b) m + b.toNat = b.toNat * 2 ^ g := by
    rw [chunkValue_eq_ofDigits, List.reverse_replicate, ite_self, List.map_replicate]
    induction g with
    | zero => simp
    | succ g ih =>
      rw [List.replicate_succ, Nat.ofDigits_cons, Nat.pow_succ, ← Nat.mul_assoc, ← ih]
      ring
  rw [Nat.mul_sub_one, ← hsum, Nat.add_sub_cancel]

/-! ## One bit order a run -/

/-- No operation writes the configuration in a run (10_state.md R17). -/
theorem exec_cfg_of_run {i : Instr} {s t : State} (hp : s.phase = .run) (hx : exec i s = .next t) : t.cfg = s.cfg := by
  cases exec_cases hx with
  | idle | protocol | closed => rfl
  | opened _ h | notOpened _ h | written _ _ _ h => exact absurd hp h
  | clockOnly | dataOnly => simp
  | gateClosed c d | noEdge c d | edge c d => exact afterComparators_cfg c d s

/-- Settles O41: a palindrome is its own reverse, and so is a chunk of equal bits. -/
theorem palindromesIgnoreTheBitOrder : Obligations.PalindromesIgnoreTheBitOrder :=
  ⟨fun _ h => congrArg (weightedSum 0) h,
    fun g m => ⟨by simp [chunkValue_replicate], by simp [chunkValue_replicate]⟩,
    fun _ _ _ hp hx => congrArg CfgRegs.msbFirst (exec_cfg_of_run hp hx)⟩

/-! ## Groups of one bit -/

/-- In an open run with `GROUP_SIZE = 1` the group is always empty. -/
theorem State.Inv.emptyGroup {s : State} (h : s.Inv) (hp : s.phase = .run) (hg : s.cfg.groupSize = 1) :
    s.cnt = 0 ∧ s.sh = 0 := by
  obtain ⟨hlt, -⟩ := h.groupsRun hp
  have hcnt : s.cnt = 0 := by omega
  have hsh := h.shBound
  rw [hcnt] at hsh
  exact ⟨hcnt, by omega⟩

/-- A bit that completes an empty group comes out as its value. -/
theorem val_mem_groupEvents {s : State} (hg : s.cfg.groupSize = 1) (hcnt : s.cnt = 0) (hsh : s.sh = 0) (b : Bool) :
    Event.val b.toNat ∈ groupEvents b s := by
  simp [groupEvents, hg, hcnt, hsh, shiftIn_empty]

theorem bit_not_mem_groupEvents (b b' : Bool) (s : State) : Event.bit b ∉ groupEvents b' s := fun h => by
  have hmem : b ∈ (groupEvents b' s).filterMap Event.bit? := List.mem_filterMap.mpr ⟨_, h, rfl⟩
  simp at hmem

/-- A beat with an edge emits the latched bit, and no other. -/
theorem bit_mem_edgeBeat {c d : SampleT} {s : State} {qc qd b : Bool} :
    Event.bit b ∈ (edgeBeat qc qd (afterComparators c d s)).events ↔ b = qd := by
  simp [edgeBeat, bit_not_mem_afterComparators, bit_not_mem_groupEvents]

/-- Settles O42: of the cases of a paired beat one emits `BIT`, and there the empty group is full with this bit. -/
theorem groupsOfOneEmitEveryBit : Obligations.GroupsOfOneEmitEveryBit := by
  refine ⟨shiftIn_empty, fun c d s t h hp hg hx => ?_⟩
  obtain ⟨hcnt, hsh⟩ := h.emptyGroup hp hg
  refine ⟨hcnt, hsh, fun b hb => ?_⟩
  cases exec_cases hx with
  | protocol => cases hb
  | gateClosed | noEdge => exact absurd hb (bit_not_mem_afterComparators c d s b)
  | edge _ _ _ qc qd =>
    have hval := val_mem_groupEvents hg hcnt hsh qd
    obtain rfl := bit_mem_edgeBeat.mp hb
    simp [edgeBeat, hval]

end Sys2Proof.Machine
end

section
/-! PROOFS. 44_group_decoder.md: the rule of `GRP_STEP`, the hexadecimal strings and `EXPAND`. The bits of `EXPAND` and
the digits of `HEXSTR` are the lowest digits of a value in base 2 and base 16, and `Nat.ofDigits` gives the value back
from them (`ofDigits_lowDigits`). -/

namespace Sys2Proof.Machine

/-! ## `GRP_STEP` -/

/-- Settles O35: the branches of `grpStep_eq`, with the fixed width of `HEX_PAD` here. -/
theorem groupStepFollowsItsRule : Obligations.GroupStepFollowsItsRule := by
  rintro b s v rfl
  rw [grpStep_eq]
  refine ⟨fun hg hx => ?_, fun hg hx => ?_, fun hg => ?_⟩
  · simp [groupEvents, hg, hx, Config.hexPad]
  · simp [groupEvents, hg, hx]
  · simp [groupEvents, hg]

/-! ## The lowest digits of a value -/

/-- The `n` lowest digits of `v` in base `b`, the lowest first. -/
def lowDigits (b v n : Nat) : List Nat := (List.range n).map fun i => v / b ^ i % b

/-- They are the digits of the value modulo `b^n`. -/
theorem ofDigits_lowDigits (b v n : Nat) : Nat.ofDigits b (lowDigits b v n) = v % b ^ n := by
  induction n with
  | zero => simp [lowDigits, Nat.mod_one]
  | succ n ih =>
    have hsucc : lowDigits b v (n + 1) = lowDigits b v n ++ [v / b ^ n % b] := by simp [lowDigits, List.range_succ]
    have hlen : (lowDigits b v n).length = n := by simp [lowDigits]
    rw [hsucc, Nat.ofDigits_append, ih, hlen, Nat.ofDigits_singleton, Nat.mod_pow_succ]

/-! ## `EXPAND` -/

theorem length_expand (v g : Nat) (m : Bool) : (expand v g m).length = g := by simp [expand]

/-- In the order `MSB_FIRST = 0` the bits are the lowest binary digits. -/
theorem map_toNat_expand (v g : Nat) : (expand v g false).map Bool.toNat = lowDigits 2 v g := by
  rw [expand, lowDigits, List.map_map]
  refine List.map_congr_left fun k _ => ?_
  rcases Nat.mod_two_eq_zero_or_one (v / 2 ^ k) with h | h <;> simp [Nat.shiftRight_eq_div_pow, h]

/-- The two orders are the reverse of each other. -/
theorem reverse_expand (v g : Nat) : (expand v g true).reverse = expand v g false := by
  refine List.ext_getElem (by simp [length_expand]) fun k hk _ => ?_
  have hk' : g - 1 - (g - 1 - k) = k := by
    rw [List.length_reverse, length_expand] at hk
    omega
  simp [expand, hk']

theorem chunkValue_expand (v g : Nat) (m : Bool) : chunkValue (expand v g m) m = v % 2 ^ g := by
  have hbits : (if m then (expand v g m).reverse else expand v g m) = expand v g false := by
    cases m with
    | true => exact reverse_expand v g
    | false => rfl
  rw [chunkValue_eq_ofDigits, hbits, map_toNat_expand, ofDigits_lowDigits]

/-- Chunks of one length have different values: their bits are the digits of the value. -/
theorem chunkValue_inj {c c' : List Bool} {m : Bool} (hlen : c.length = c'.length)
    (h : chunkValue c m = chunkValue c' m) : c = c' := by
  have hdigit (a : List Bool) : ∀ x ∈ a.map Bool.toNat, x < 2 := by
    simp only [List.mem_map]
    rintro _ ⟨b, -, rfl⟩
    exact b.toNat_lt
  have hinj : Function.Injective Bool.toNat := by decide
  rw [chunkValue_eq_ofDigits, chunkValue_eq_ofDigits] at h
  have hmap := Nat.ofDigits_inj_of_len_eq Nat.one_lt_two (by cases m <;> simpa using hlen) (hdigit _) (hdigit _) h
  have horder := hinj.list_map hmap
  cases m with
  | true => exact List.reverse_injective horder
  | false => exact horder

theorem expand_chunkValue (c : List Bool) (m : Bool) : expand (chunkValue c m) c.length m = c := by
  refine chunkValue_inj (length_expand _ _ m) (m := m) ?_
  rw [chunkValue_expand, Nat.mod_eq_of_lt (chunkValue_lt c m)]

/-! ## Hexadecimal digits -/

theorem hexDigit_eq : ∀ x < 16, hexDigit x
    = if x < 10 then Char.ofNat ('0'.toNat + x) else Char.ofNat ('a'.toNat + (x - 10)) := by decide

theorem hexDigit_inj : ∀ x < 16, ∀ y < 16, hexDigit x = hexDigit y → x = y := by decide

/-- Digit `i` is that of weight `16^(nd - 1 - i)`. -/
theorem hexDigits_eq (v nd : Nat) :
    hexDigits v nd = (List.range nd).map fun i => hexDigit (v / 16 ^ (nd - 1 - i) % 16) := by
  simp only [hexDigits, Nat.shiftRight_eq_div_pow, Nat.pow_mul, Nat.reducePow]

theorem length_hexDigits (v nd : Nat) : (hexDigits v nd).length = nd := by simp [hexDigits]

/-- Strings of one width are equal only for values equal in that many digits. -/
theorem mod_eq_of_hexDigits_eq {v v' nd : Nat} (h : hexDigits v nd = hexDigits v' nd) :
    v % 16 ^ nd = v' % 16 ^ nd := by
  rw [hexDigits_eq, hexDigits_eq, List.map_inj_left] at h
  have hdigits : lowDigits 16 v nd = lowDigits 16 v' nd := by
    refine List.map_congr_left fun i hi => ?_
    have hlt : i < nd := List.mem_range.mp hi
    have hdigit := h (nd - 1 - i) (List.mem_range.mpr (by omega))
    have hsub : nd - 1 - (nd - 1 - i) = i := by omega
    rw [hsub] at hdigit
    exact hexDigit_inj _ (Nat.mod_lt _ (by decide)) _ (Nat.mod_lt _ (by decide)) hdigit
  rw [← ofDigits_lowDigits, hdigits, ofDigits_lowDigits]

/-- `ceil(g / 4)` digits hold `g` bits. -/
theorem two_pow_le_hexWidth (g : Nat) : 2 ^ g ≤ 16 ^ hexWidth g := by
  have hg : g ≤ 4 * hexWidth g := by
    unfold hexWidth
    omega
  calc 2 ^ g ≤ 2 ^ (4 * hexWidth g) := Nat.pow_le_pow_right Nat.two_pos hg
    _ = 16 ^ hexWidth g := Nat.pow_mul 2 4 _

theorem hexStr_fixed_inj {v v' g : Nat} (hv : v < 2 ^ g) (hv' : v' < 2 ^ g)
    (h : hexStr .fixed v g = hexStr .fixed v' g) : v = v' := by
  have hdigits : hexDigits v (hexWidth g) = hexDigits v' (hexWidth g) := (List.cons.inj (List.cons.inj h).2).2
  have hmod := mod_eq_of_hexDigits_eq hdigits
  have hle := two_pow_le_hexWidth g
  rwa [Nat.mod_eq_of_lt (hv.trans_le hle), Nat.mod_eq_of_lt (hv'.trans_le hle)] at hmod

/-- Settles O38: `EXPAND` takes the digits that `chunk_value` adds up, and the digits of a string are those of its
value. -/
theorem expandInvertsChunkValue : Obligations.ExpandInvertsChunkValue :=
  ⟨fun c m => ⟨expand_chunkValue c m, chunkValue_lt c m⟩,
    fun v g m hv => ⟨(chunkValue_expand v g m).trans (Nat.mod_eq_of_lt hv), length_expand v g m⟩,
    fun _ _ _ hv hv' h => hexStr_fixed_inj hv hv' h⟩

/-- Settles O39: the bounds on `nd` make it the width of the string. -/
theorem hexStringHasFixedWidth : Obligations.HexStringHasFixedWidth := by
  intro v g nd hg _ hlow hhigh
  have hnd : hexWidth g = nd := by
    unfold hexWidth
    omega
  refine ⟨hexDigits v nd, by rw [← hnd]; rfl, length_hexDigits v nd, by omega, fun i hi => ⟨_, rfl, ?_⟩⟩
  rw [← hexDigit_eq _ (Nat.mod_lt _ (by decide)), hexDigits_eq, List.getElem?_map, List.getElem?_range hi]
  rfl

/-! ## The string without leading zeros -/

theorem stripZeros_cons_zero (ds : List Char) : stripZeros ('0' :: ds) = stripZeros ds := by simp [stripZeros]

theorem stripZeros_cons_of_ne {d : Char} (hd : d ≠ '0') (ds : List Char) : stripZeros (d :: ds) = d :: ds := by
  simp [stripZeros, hd]

/-- What is removed from a string of digits is leading zeros, and what stays is a single zero or has none. -/
theorem stripZeros_spec {ds : List Char} (h : ds ≠ []) :
    (∃ k, ds = List.replicate k '0' ++ stripZeros ds)
      ∧ (stripZeros ds = ['0'] ∨ ∃ d rest, stripZeros ds = d :: rest ∧ d ≠ '0') := by
  induction ds with
  | nil => exact absurd rfl h
  | cons d ds ih =>
    by_cases hd : d = '0'
    · subst hd
      rw [stripZeros_cons_zero]
      by_cases hds : ds = []
      · subst hds
        exact ⟨⟨0, rfl⟩, .inl rfl⟩
      · obtain ⟨⟨k, hk⟩, hshape⟩ := ih hds
        exact ⟨⟨k + 1, congrArg ('0' :: ·) hk⟩, hshape⟩
    · rw [stripZeros_cons_of_ne hd]
      exact ⟨⟨0, rfl⟩, .inr ⟨d, ds, rfl, hd⟩⟩

/-- Settles O40: a group of at least one bit has a digit. -/
theorem minimalHexStripsLeadingZeros : Obligations.MinimalHexStripsLeadingZeros := by
  intro v g hg _
  have hne : hexDigits v (hexWidth g) ≠ [] := by
    rw [← List.length_pos_iff, length_hexDigits, hexWidth]
    omega
  obtain ⟨⟨k, hk⟩, hshape⟩ := stripZeros_spec hne
  exact ⟨k, _, congrArg ('0' :: 'x' :: ·) hk, rfl, hshape⟩

end Sys2Proof.Machine
end

section
/-! PROOFS. 44_group_decoder.md R126: the values of a run. Behind its `START` every beat of a run keeps the link between
the group decoder and the bits latched so far (`Collected`): the values of the complete groups are emitted, and the
partial value is that of the bits behind them. -/

namespace Sys2Proof.Machine

/-! ## The events of the group decoder -/

theorem outputOf_append (x : Bool) (es es' : List Event) :
    outputOf x (es ++ es') = outputOf x es ++ outputOf x es' := by
  cases x <;> simp [outputOf]

/-- Levels and edges show no bit and no group. -/
theorem filterMap_of_rank_lt {es : List Event} (h : ∀ e ∈ es, e.rank < 3) :
    es.filterMap Event.bit? = [] ∧ es.filterMap Event.val? = [] ∧ es.filterMap Event.hex? = [] := by
  have hnone : ∀ e ∈ es, e.bit? = none ∧ e.val? = none ∧ e.hex? = none := by
    intro e he
    cases e with
    | dig | edge => exact ⟨rfl, rfl, rfl⟩
    | bit | val | hex | fin => exact absurd (h _ he) (by simp [Event.rank])
  simp only [List.filterMap_eq_nil_iff]
  exact ⟨fun e he => (hnone e he).1, fun e he => (hnone e he).2.1, fun e he => (hnone e he).2.2⟩

theorem filterMap_val?_groupEvents (b : Bool) (s : State) : (groupEvents b s).filterMap Event.val?
    = if s.cnt + 1 = s.cfg.groupSize then [shiftIn s.cfg.msbFirst s.sh s.cnt b] else [] := by
  by_cases hg : s.cnt + 1 = s.cfg.groupSize
  · cases hx : s.cfg.asHex <;> simp [groupEvents, hg, hx, Event.val?]
  · simp [groupEvents, hg]

/-- The output of the events is their values, presented as `decode` presents them. -/
def ShowsValues (c : CfgRegs) (es : List Event) : Prop :=
  outputOf c.asHex es = (es.filterMap Event.val?).map (present c.groupSize c.asHex)

theorem ShowsValues.append {c : CfgRegs} {es es' : List Event} (h : ShowsValues c es) (h' : ShowsValues c es') :
    ShowsValues c (es ++ es') := by
  rw [ShowsValues] at h h'
  rw [ShowsValues, outputOf_append, h, h', List.filterMap_append, List.map_append]

theorem showsValues_of_rank_lt (c : CfgRegs) {es : List Event} (h : ∀ e ∈ es, e.rank < 3) : ShowsValues c es := by
  obtain ⟨-, hval, hhex⟩ := filterMap_of_rank_lt h
  simp [ShowsValues, outputOf, hval, hhex]

/-- A latched bit with the events of its group. -/
theorem showsValues_latched (b : Bool) (s : State) : ShowsValues s.cfg (.bit b :: groupEvents b s) := by
  by_cases hg : s.cnt + 1 = s.cfg.groupSize
  · cases hx : s.cfg.asHex <;>
      simp [ShowsValues, groupEvents, outputOf, present, hg, hx, List.filterMap_cons, Event.val?, Event.hex?]
  · simp [ShowsValues, groupEvents, outputOf, hg, List.filterMap_cons, Event.val?, Event.hex?]

/-! ## The bits of a run and the group decoder -/

/-- The group decoder in `s` has taken `bits` since its reset and has emitted `vals`: the values of the complete groups,
while the partial value is that of the bits behind them. -/
structure Collected (bits : List Bool) (vals : List Nat) (s : State) : Prop where
  cnt_lt : s.cnt < s.cfg.groupSize
  length : bits.length = s.nVals * s.cfg.groupSize + s.cnt
  sh : s.sh = chunkValue (bits.drop (s.nVals * s.cfg.groupSize)) s.cfg.msbFirst
  vals : vals = (List.range s.nVals).map fun k => chunkValue (chunk bits s.cfg.groupSize k) s.cfg.msbFirst

theorem collected_nil {s : State} (hg : 0 < s.cfg.groupSize) (hsh : s.sh = 0) (hcnt : s.cnt = 0)
    (hnVals : s.nVals = 0) : Collected [] [] s where
  cnt_lt := by rwa [hcnt]
  length := by simp [hcnt, hnVals]
  sh := by simp [hsh, chunkValue, weightedSum]
  vals := by simp [hnVals]

/-- Later bits leave a complete chunk alone. -/
theorem chunk_append {bits : List Bool} {g k : Nat} (h : k * g + g ≤ bits.length) (c : List Bool) :
    chunk (bits ++ c) g k = chunk bits g k := by
  have htake : g ≤ (bits.drop (k * g)).length := by
    rw [List.length_drop]
    omega
  rw [chunk, List.drop_append_of_le_length (by omega), List.take_append_of_le_length htake, chunk]

namespace Collected
variable {bits : List Bool} {vals : List Nat} {s t : State} (h : Collected bits vals s)
include h

/-- A step that leaves the registers behind the comparators alone. -/
theorem held (hh : Held s t) (hc : t.cfg = s.cfg) : Collected bits vals t := by
  obtain ⟨hlt, hlen, hsh, hvals⟩ := h
  constructor <;> simpa only [hh.cnt, hh.nVals, hh.sh, hc]

/-- The open group with one bit more has the value that `SHIFT_IN` gives. -/
theorem chunkValue_openGroup (b : Bool) :
    chunkValue ((bits ++ [b]).drop (s.nVals * s.cfg.groupSize)) s.cfg.msbFirst
      = shiftIn s.cfg.msbFirst s.sh s.cnt b := by
  have hlen := h.length
  rw [List.drop_append_of_le_length (by omega), chunkValue_concat, ← h.sh, List.length_drop, hlen,
    Nat.add_sub_cancel_left]

/-- One bit more leaves the complete groups alone. -/
theorem vals_append (b : Bool) :
    vals = (List.range s.nVals).map fun k => chunkValue (chunk (bits ++ [b]) s.cfg.groupSize k) s.cfg.msbFirst := by
  rw [h.vals]
  refine List.map_congr_left fun k hk => ?_
  have hle := Nat.mul_le_mul_right s.cfg.groupSize (Nat.succ_le_of_lt (List.mem_range.mp hk))
  have hlen := h.length
  rw [Nat.succ_mul] at hle
  rw [chunk_append (by omega)]

/-- A latched bit: it completes the open group, or joins it. -/
theorem latch (qc b : Bool) :
    Collected (bits ++ [b]) (vals ++ (groupEvents b s).filterMap Event.val?) (edgeBeat qc b s) := by
  have hlt := h.cnt_lt
  have hlen : (bits ++ [b]).length = s.nVals * s.cfg.groupSize + (s.cnt + 1) := by
    rw [List.length_append, h.length]
    rfl
  rw [filterMap_val?_groupEvents]
  by_cases hg : s.cnt + 1 = s.cfg.groupSize
  · rw [hg] at hlen
    have hchunk : chunk (bits ++ [b]) s.cfg.groupSize s.nVals
        = (bits ++ [b]).drop (s.nVals * s.cfg.groupSize) := by
      refine List.take_of_length_le ?_
      rw [List.length_drop]
      omega
    rw [if_pos hg]
    constructor <;> simp only [edgeBeat, hg, if_true, Nat.succ_mul]
    · omega
    · exact hlen
    · rw [← hlen, List.drop_length]
      cases s.cfg.msbFirst <;> rfl
    · rw [List.range_succ, List.map_append, ← h.vals_append, List.map_singleton, hchunk, h.chunkValue_openGroup]
  · rw [if_neg hg, List.append_nil]
    constructor <;> simp only [edgeBeat, hg, if_false]
    · omega
    · exact hlen
    · exact (h.chunkValue_openGroup b).symm
    · exact h.vals_append b

theorem nVals_eq : s.nVals = bits.length / s.cfg.groupSize := by
  have hlt := h.cnt_lt
  rw [h.length, Nat.add_comm, Nat.add_mul_div_right _ _ (by omega), Nat.div_eq_of_lt hlt, Nat.zero_add]

theorem cnt_eq : s.cnt = bits.length % s.cfg.groupSize := by
  rw [h.length, Nat.add_comm, Nat.add_mul_mod_self_right, Nat.mod_eq_of_lt h.cnt_lt]

theorem vals_eq_groupValues : vals = groupValues bits s.cfg.groupSize s.cfg.msbFirst := by
  rw [h.vals, h.nVals_eq, groupValues]

/-- A step that shows levels and edges alone. -/
theorem held_of_rank_lt (hh : Held s t) (hc : t.cfg = s.cfg) (hes : ∀ e ∈ t.events, e.rank < 3) :
    Collected (bits ++ t.events.filterMap Event.bit?) (vals ++ t.events.filterMap Event.val?) t
      ∧ ShowsValues s.cfg t.events := by
  obtain ⟨hbit, hval, -⟩ := filterMap_of_rank_lt hes
  rw [hbit, hval, List.append_nil, List.append_nil]
  exact ⟨h.held hh hc, showsValues_of_rank_lt s.cfg hes⟩

end Collected

/-! ## Beats -/

theorem rank_level_lt (ch : Chan) (o : Option Bool) : ∀ e ∈ (o.map (Event.dig ch)).toList, e.rank < 3 := by
  cases o <;> cases ch <;> simp [Event.rank]

theorem rank_afterComparators_lt (c d : SampleT) (s : State) : ∀ e ∈ (afterComparators c d s).events, e.rank < 3 := by
  rw [afterComparators_events]
  exact List.forall_mem_append.mpr ⟨rank_level_lt .clk _, rank_level_lt .dat _⟩

theorem rank_cmpStep_lt (ch : Chan) (v : SampleT) (s : State) : ∀ e ∈ (cmpStep ch v s.quiet).events, e.rank < 3 := by
  rw [cmpStep_events]
  exact rank_level_lt ch _

/-- A beat or a `NOP` in a run: one case of `exec` latches a bit, the others show levels at most. -/
theorem Collected.exec_beat {bits : List Bool} {vals : List Nat} {i : Instr} {s t : State} (h : Collected bits vals s)
    (hi : isBeat i = true ∨ i = .nop) (hp : s.phase = .run) (hx : exec i s = .next t) :
    Collected (bits ++ t.events.filterMap Event.bit?) (vals ++ t.events.filterMap Event.val?) t
      ∧ ShowsValues s.cfg t.events := by
  cases exec_cases hx with
  | idle => exact h.held_of_rank_lt ⟨rfl, rfl, rfl, rfl, rfl⟩ rfl nofun
  | protocol _ _ hf => simp [hp, isProtocolFault_of_beat hi] at hf
  | opened | notOpened | closed | written => simp [isBeat, sampleOf?] at hi
  | clockOnly | dataOnly => exact h.held_of_rank_lt (by constructor <;> simp) (by simp) (rank_cmpStep_lt _ _ s)
  | gateClosed c d =>
    exact h.held_of_rank_lt (held_afterComparators c d s) (afterComparators_cfg c d s) (rank_afterComparators_lt c d s)
  | noEdge c d =>
    obtain ⟨hu, hshow⟩ := h.held_of_rank_lt (held_afterComparators c d s) (afterComparators_cfg c d s)
      (rank_afterComparators_lt c d s)
    exact ⟨{ hu with }, hshow⟩
  | edge c d _ qc qd =>
    have hcfg := afterComparators_cfg c d s
    have hu : Collected bits vals (afterComparators c d s) := h.held (held_afterComparators c d s) hcfg
    have hfront : ∀ e ∈ (afterComparators c d s).events ++ [.edge], e.rank < 3 :=
      List.forall_mem_append.mpr ⟨rank_afterComparators_lt c d s, by simp [Event.rank]⟩
    have hevents : (edgeBeat qc qd (afterComparators c d s)).events
        = (afterComparators c d s).events ++ [.edge] ++ .bit qd :: groupEvents qd (afterComparators c d s) := by
      simp [edgeBeat]
    obtain ⟨hbit, hval, -⟩ := filterMap_of_rank_lt hfront
    rw [hevents, List.filterMap_append (l := _ ++ _), List.filterMap_append (l := _ ++ _), hbit, hval]
    refine ⟨?_, (showsValues_of_rank_lt s.cfg hfront).append ?_⟩
    · have hbits : (Event.bit qd :: groupEvents qd (afterComparators c d s)).filterMap Event.bit? = [qd] :=
        congrArg (qd :: ·) (filterMap_bit?_groupEvents qd _)
      rw [hbits]
      exact hu.latch qc qd
    · rw [← hcfg]
      exact showsValues_latched qd _

/-- Beats and `NOP`s in an open run. -/
theorem Collected.runOps_beats {beats : List Instr} {bits : List Bool} {vals : List Nat} {s t : State} {es : List Event}
    (h : Collected bits vals s) (hp : s.phase = .run) (hb : ∀ i ∈ beats, isBeat i = true ∨ i = .nop)
    (hrun : runOps beats s = .next (t, es)) :
    t.phase = .run ∧ t.cfg = s.cfg
      ∧ Collected (bits ++ es.filterMap Event.bit?) (vals ++ es.filterMap Event.val?) t ∧ ShowsValues s.cfg es := by
  induction beats generalizing bits vals s es with
  | nil =>
    cases hrun
    simpa [hp, ShowsValues, outputOf] using h
  | cons i beats ih =>
    obtain ⟨hi, hrest⟩ := List.forall_mem_cons.mp hb
    obtain ⟨u, es', hx, hr, rfl⟩ := runOps_cons_next hrun
    obtain ⟨hpu, hcu, -⟩ := exec_beat_digitizes hi hp hx
    obtain ⟨hu, hshow⟩ := h.exec_beat hi hp hx
    obtain ⟨hpt, hct, ht, hshow'⟩ := ih hu hpu hrest hr
    rw [hcu] at hct hshow'
    simp only [List.filterMap_append, ← List.append_assoc]
    exact ⟨hpt, hct, ht, hshow.append hshow'⟩

/-- `END` in a run with no flag set completes, keeps the number of groups, and finds an unfinished group (R165). -/
theorem exec_endRun_of_run {s : State} (hp : s.phase = .run) (ha : s.flags.any = false) :
    ∃ u, exec .endRun s = .next u ∧ u.nVals = s.nVals ∧ (u.flags.indiv = true ↔ s.cnt ≠ 0) := by
  have hindiv : s.flags.indiv = false := Flags.get_of_any_eq_false ha .indiv
  obtain ⟨u, hx⟩ : ∃ u, exec .endRun s = .next u := by simp [exec, execEndRun, hp]
  refine ⟨u, hx, ?_⟩
  cases exec_cases hx with
  | protocol _ _ h => simp [isProtocolFault, hp] at h
  | closed _ _ f hf =>
    subst hf
    by_cases hcnt : s.cnt = 0 <;> simp [ha, hcnt, hindiv, Flags.set]

/-- Settles O48: after `START` nothing is collected; at the end the emitted values are those of the complete groups, and
`END` finds the rest of the bits. -/
theorem runDecodesItsBits : Obligations.RunDecodesItsBits := by
  rintro beats s t es bits hp hl hb hrun ha rfl
  obtain ⟨v, es, hstart, hops, rfl⟩ := runOps_cons_next hrun
  cases hstart.symm.trans (execStart_of_legal hp hl)
  have hpos : 0 < s.cfg.groupSize := (s.cfg.legal_iff.mp hl).2
  have hnil : Collected [] [] { s.quiet.clearRun with phase := .run } := collected_nil hpos rfl rfl rfl
  obtain ⟨hpt, hcfg, ht, hshow⟩ : t.phase = .run ∧ t.cfg = s.cfg
      ∧ Collected (es.filterMap Event.bit?) (es.filterMap Event.val?) t ∧ ShowsValues s.cfg es :=
    hnil.runOps_beats rfl hb hops
  have hvals := ht.vals_eq_groupValues
  have hcnt := ht.cnt_eq
  have hnVals := ht.nVals_eq
  rw [hcfg] at hvals hcnt hnVals
  obtain ⟨u, hx, hnu, hindiv⟩ := exec_endRun_of_run hpt ha
  rw [hcnt] at hindiv
  simp only [State.clearRun_events, State.quiet_events, List.nil_append]
  refine ⟨u, hx, hvals, ?_⟩
  by_cases hrest : (es.filterMap Event.bit?).length % s.cfg.groupSize = 0
  · rw [decodeBits, if_neg (not_not.mpr hrest)]
    refine ⟨?_, nofun⟩
    rintro o ⟨⟩
    rw [← hvals]
    exact ⟨hshow, hnu.trans hnVals, Bool.eq_false_iff.mpr fun hi => hindiv.mp hi hrest⟩
  · rw [decodeBits, if_pos hrest]
    exact ⟨nofun, fun _ _ => hindiv.mpr hrest⟩

end Sys2Proof.Machine
end

section
/-! PROOFS. 45_operations.md R131 to R139: the operations one by one. An operation that is illegal in its phase is one
protocol fault, whatever the operation (`exec_of_protocolFault`); every other effect is read off the cases of `exec`. -/

namespace Sys2Proof.Machine

/-! ## Protocol faults -/

/-- An operation that is illegal in its phase sets `ERR_PROTO` and has no other effect (R138). -/
theorem exec_of_protocolFault {i : Instr} {s : State} (h : isProtocolFault i s.phase = true) :
    exec i s = .next (s.quiet.raise .proto) := by
  cases i with
  | nop => cases h
  | rsvd => rfl
  | start => exact if_pos (beq_iff_eq.mp h)
  | endRun => exact if_pos (bne_iff_ne.mp h)
  | smp2 | smpc | smpd =>
    simp only [exec, execSmp2, execSmpc, execSmpd]
    exact sampleBeat_of_not_run _ (bne_iff_ne.mp h)
  | cfgw w =>
    cases w with
    | reserved => rfl
    | thrLow | thrHigh | risingEdge | groupSize | msbFirst | asHex => exact if_pos (beq_iff_eq.mp h)

/-- A flag that is no ambiguity flag. -/
theorem Chan.ambigFlag_ne_of {e : ErrFlag} (hclk : e ≠ .ambigClk) (hdat : e ≠ .ambigDat) (ch : Chan) :
    ch.ambigFlag ≠ e := by
  cases ch with
  | clk => exact hclk.symm
  | dat => exact hdat.symm

/-- A comparator sets no flag but that of its channel. -/
theorem cmpStep_flags_get_of_ne {ch : Chan} {e : ErrFlag} (he : ch.ambigFlag ≠ e) (v : SampleT) (s : State) :
    (cmpStep ch v s).flags.get e = s.flags.get e := by
  rw [cmpStep_flags_get, beq_false_of_ne he, Bool.and_false, Bool.or_false]

/-- Settles O17: of the cases of `exec` the protocol fault alone sets the flag. -/
theorem protocolFaultOnlySetsItsFlag : Obligations.ProtocolFaultOnlySetsItsFlag := by
  refine ⟨fun s => rfl, fun i s => exec_of_protocolFault, fun i s t hi hx ht => ?_⟩
  have hne : ∀ ch : Chan, ch.ambigFlag ≠ .proto := Chan.ambigFlag_ne_of nofun nofun
  cases exec_cases hx with
  | idle | written => exact ht
  | protocol _ _ h => simp [hi] at h
  | opened | notOpened => cases ht
  | closed _ _ f hf =>
    subst hf
    split at ht <;> exact ht
  | clockOnly c => exact (cmpStep_flags_get_of_ne (hne .clk) c s.quiet).symm.trans ht
  | dataOnly d => exact (cmpStep_flags_get_of_ne (hne .dat) d s.quiet).symm.trans ht
  | gateClosed c d | noEdge c d | edge c d => exact (afterComparators_flags_get hne c d s).symm.trans ht

/-! ## Each operation in its phases -/

/-- Settles O12: illegality is the negation of `CfgRegs.legal_iff`. -/
theorem startOpensOrRefusesTheRun : Obligations.StartOpensOrRefusesTheRun := by
  intro s
  have hlegal : ¬(s.cfg.thrHigh < s.cfg.thrLow ∨ s.cfg.groupSize < 1) ↔ s.cfg.legal = true := by
    rw [CfgRegs.legal_iff, not_or, not_lt, not_lt]
  refine ⟨fun hp => exec_of_protocolFault (beq_iff_eq.mpr hp),
    fun hp hc => execStart_of_legal hp (hlegal.mp hc),
    fun hp hc => execStart_of_illegal hp (Bool.eq_false_iff.mpr fun hl => hlegal.mpr hl hc)⟩

/-- Settles O13: the gate of R90 is tested on the flags after both comparators. -/
theorem pairedBeatRunsTheUnitsInOrder : Obligations.PairedBeatRunsTheUnitsInOrder := by
  intro s c d
  refine ⟨fun hp => exec_of_protocolFault (bne_iff_ne.mpr hp), ?_⟩
  rintro hp hl _ rfl
  have hx : exec (.smp2 c d) s = gatedBeat (afterComparators c d s) := execSmp2_of_run c d hp hl
  refine ⟨fun ha => hx.trans (gatedBeat_of_flag ha), fun ha qc qd hc hd hg => ?_⟩
  have hpos : (afterComparators c d s).cfg.groupSize ≠ 0 := by
    rw [afterComparators_cfg]
    omega
  exact (hx.trans (gatedBeat_of_levels ha hc hd)).trans (latchBeat_of_pos qc qd hpos)

theorem execSmpc_of_run {s : State} (c : SampleT) (hp : s.phase = .run) (hl : s.cfg.thrLow ≤ s.cfg.thrHigh) :
    execSmpc c s = .next ((cmpStep .clk c s.quiet).raise .len) :=
  sampleBeat_of_run _ hp hl

theorem execSmpd_of_run {s : State} (d : SampleT) (hp : s.phase = .run) (hl : s.cfg.thrLow ≤ s.cfg.thrHigh) :
    execSmpd d s = .next ((cmpStep .dat d s.quiet).raise .len) :=
  sampleBeat_of_run _ hp hl

/-- Settles O14: the body of an unpaired beat is its comparator and the raise of the flag. -/
theorem unpairedBeatStepsOneComparator : Obligations.UnpairedBeatStepsOneComparator := by
  refine fun s v => ⟨fun hp => ⟨exec_of_protocolFault (bne_iff_ne.mpr hp),
    exec_of_protocolFault (bne_iff_ne.mpr hp)⟩, fun hp hl => ⟨?_, ?_⟩⟩
  · rintro _ rfl
    exact execSmpc_of_run v hp hl
  · rintro _ rfl
    exact execSmpd_of_run v hp hl

/-- `END` in `RUN` (R136). -/
theorem execEndRun_of_run {s : State} (hp : s.phase = .run) {f : Flags}
    (hf : f = { s.flags with indiv := s.flags.indiv || (!s.flags.any && decide (s.cnt ≠ 0)) }) :
    execEndRun s = .next { s with phase := .done, flags := f, events := [.fin f.cause] } := by
  subst hf
  unfold execEndRun
  rw [if_neg (not_not.mpr hp)]
  cases ha : s.flags.any with
  | true => simp [State.emit, State.quiet]
  | false =>
    by_cases hc : s.cnt = 0 <;> simp [hc, State.emit, State.quiet, State.raise, Flags.set]

/-- Settles O15: the two branches of `END`, by phase. -/
theorem endClosesTheRun : Obligations.EndClosesTheRun :=
  fun _ => ⟨fun hp => exec_of_protocolFault (bne_iff_ne.mpr hp), fun hp _ hf => execEndRun_of_run hp hf⟩

/-- Settles O16: outside `RUN` a register that has a number takes any value. -/
theorem cfgwWritesTheNamedRegister : Obligations.CfgwWritesTheNamedRegister := by
  refine fun s => ⟨fun w h => exec_of_protocolFault ?_, fun hp => ?_⟩
  · obtain hp | ⟨r, rfl⟩ := h
    · cases w <;> simp [isProtocolFault, hp]
    · rfl
  · have hwrite {w : CfgWrite} {c : CfgRegs} (hw : s.cfg.write w = some c) :
        exec (.cfgw w) s = .next { s.quiet with cfg := c } := execCfgw_of_write hp hw
    exact ⟨fun _ => hwrite rfl, fun _ => hwrite rfl, fun _ => hwrite rfl, fun _ => hwrite rfl, fun _ => hwrite rfl,
      fun _ => hwrite rfl⟩

/-! ## The phase machine -/

/-- An operation that is illegal in its phase keeps it. -/
theorem nextPhase_of_protocolFault {i : Instr} {p : Phase} (h : isProtocolFault i p = true) (legal : Bool) :
    nextPhase legal i p = p := by
  cases i with
  | start => rw [beq_iff_eq.mp h]; rfl
  | endRun => cases p <;> trivial
  | _ => rfl

theorem nextPhase_start {p : Phase} (h : p ≠ .run) (legal : Bool) :
    nextPhase legal .start p = if legal then .run else .done := by
  cases p <;> trivial

/-- The phase after an operation is that of the table (R139). -/
theorem exec_phase {i : Instr} {s t : State} (hx : exec i s = .next t) :
    t.phase = nextPhase s.cfg.legal i s.phase := by
  cases exec_cases hx with
  | idle | written => rfl
  | protocol _ _ h => exact (nextPhase_of_protocolFault h _).symm
  | opened _ hp hl | notOpened _ hp hl => rw [nextPhase_start hp, hl]; rfl
  | closed _ hp => rw [hp]; rfl
  | clockOnly | dataOnly => exact cmpStep_phase ..
  | gateClosed | noEdge | edge => exact (cmpStep_phase ..).trans (cmpStep_phase ..)

/-- Settles O18: the phase by `exec_phase`, the other entries by the cases of `START` and `CFGW`. -/
theorem phaseMachineIsTheTable : Obligations.PhaseMachineIsTheTable := by
  refine ⟨fun i s t => exec_phase, fun i s => exec_of_protocolFault, fun s t hp hx => ?_, fun w s t hi hx => ?_,
    fun s => ⟨_, rfl, rfl⟩⟩
  · cases exec_cases hx with
    | protocol _ _ h => exact absurd (beq_iff_eq.mp h) hp
    | opened _ _ hl | notOpened _ _ hl => rw [hl]; rfl
  · cases exec_cases hx with
    | protocol _ _ h => simp [hi] at h
    | written _ _ _ _ hw => exact hw

/-! ## What a sample beat leaves unchanged -/

section
variable {i : Instr} {s t : State} (hi : isBeat i = true) (hx : exec i s = .next t)
include hi hx

theorem exec_beat_frame : t.cfg = s.cfg ∧ t.phase = s.phase ∧ t.inputs = s.inputs := by
  cases exec_cases hx with
  | idle | opened | notOpened | closed | written => cases hi
  | protocol => exact ⟨rfl, rfl, rfl⟩
  | clockOnly | dataOnly => exact ⟨cmpStep_cfg .., cmpStep_phase .., cmpStep_inputs ..⟩
  | gateClosed | noEdge | edge => simp [afterComparators, edgeBeat]

/-- A sample beat sets `ERR_PROTO` outside `RUN`, `ERR_LEN` if it is unpaired and the ambiguity flag of a channel that it
carries a sample of, and no other flag. -/
theorem exec_beat_flags_get {e : ErrFlag} (hproto : e = .proto → s.phase = .run) (hlen : e = .len → isPaired i = true)
    (hambig : ∀ ch : Chan, ch.ambigFlag = e → sampleOf? ch i = none) : t.flags.get e = s.flags.get e := by
  have hcmp (ch : Chan) (hs : (sampleOf? ch i).isSome = true) : ch.ambigFlag ≠ e := fun he => by
    simp [hambig ch he] at hs
  cases exec_cases hx with
  | idle | opened | notOpened | closed | written => cases hi
  | protocol _ _ h =>
    have hne : ErrFlag.proto ≠ e := by
      rintro rfl
      simp [hproto rfl, isProtocolFault_of_beat (.inl hi)] at h
    simp [hne]
  | clockOnly c =>
    have hne : ErrFlag.len ≠ e := fun he => by cases hlen he.symm
    simp [hne, cmpStep_flags_get_of_ne (hcmp .clk rfl)]
  | dataOnly d =>
    have hne : ErrFlag.len ≠ e := fun he => by cases hlen he.symm
    simp [hne, cmpStep_flags_get_of_ne (hcmp .dat rfl)]
  | gateClosed c d | noEdge c d | edge c d =>
    exact (cmpStep_flags_get_of_ne (hcmp .dat rfl) ..).trans (cmpStep_flags_get_of_ne (hcmp .clk rfl) ..)

/-- A channel that the beat carries no sample of keeps its registers. -/
theorem exec_beat_cmp {ch : Chan} (hs : sampleOf? ch i = none) : t.cmp ch = s.cmp ch := by
  cases exec_cases hx with
  | idle | opened | notOpened | closed | written => cases hi
  | protocol => exact (State.cmp_raise ..).trans (State.cmp_quiet ..)
  | clockOnly =>
    have hne : ch ≠ .clk := by rintro rfl; cases hs
    simp [cmpStep_cmp_of_ne _ _ _ hne]
  | dataOnly =>
    have hne : ch ≠ .dat := by rintro rfl; cases hs
    simp [cmpStep_cmp_of_ne _ _ _ hne]
  | gateClosed | noEdge | edge => cases hs

/-- An unpaired beat moves nothing behind the comparators. -/
theorem exec_unpaired_held (hu : isPaired i = false) : Held s t ∧ t.lbit = s.lbit := by
  cases exec_cases hx with
  | idle | opened | notOpened | closed | written => cases hi
  | protocol => exact ⟨⟨rfl, rfl, rfl, rfl, rfl⟩, rfl⟩
  | clockOnly | dataOnly => exact ⟨by constructor <;> simp, by simp⟩
  | gateClosed | noEdge | edge => cases hu

end

/-- Settles O20, flag by flag and channel by channel. -/
theorem sampleBeatFrame : Obligations.SampleBeatFrame := by
  intro i s t hi hx
  obtain ⟨hcfg, hphase, hinputs⟩ := exec_beat_frame hi hx
  have hflag {e : ErrFlag} (hclk : e ≠ .ambigClk) (hdat : e ≠ .ambigDat) (hproto : e = .proto → s.phase = .run)
      (hlen : e = .len → isPaired i = true) : t.flags.get e = s.flags.get e :=
    exec_beat_flags_get hi hx hproto hlen fun ch he => absurd he (Chan.ambigFlag_ne_of hclk hdat ch)
  have hchan {ch : Chan} (hs : sampleOf? ch i = none) :
      t.cmp ch = s.cmp ch ∧ t.flags.get ch.ambigFlag = s.flags.get ch.ambigFlag := by
    refine ⟨exec_beat_cmp hi hx hs, exec_beat_flags_get hi hx ?_ ?_ fun ch' he => ?_⟩
    · cases ch <;> nofun
    · cases ch <;> nofun
    · rwa [not_imp_not.mp Chan.ambigFlag_ne he]
  refine ⟨hcfg, hphase, hinputs, hflag (e := .indiv) nofun nofun nofun nofun,
    hflag (e := .cfg) nofun nofun nofun nofun, fun hp => hflag (e := .proto) nofun nofun (fun _ => hp) nofun,
    fun hl => hflag (e := .len) nofun nofun nofun fun _ => hl, fun hs => hchan (ch := .clk) hs,
    fun hs => hchan (ch := .dat) hs, fun hu => ?_⟩
  obtain ⟨⟨hedg, hsh, hcnt, hnBits, hnVals⟩, hlbit⟩ := exec_unpaired_held hi hx hu
  exact ⟨hedg, hlbit, hsh, hcnt, hnBits, hnVals⟩

/-! ## What an operation without a sample leaves unchanged -/

/-- A write leaves the registers that it does not name. -/
theorem CfgRegs.write_frame {c k : CfgRegs} {w : CfgWrite} (h : c.write w = some k) :
    (w.regNumber ≠ 0 → k.thrLow = c.thrLow) ∧ (w.regNumber ≠ 1 → k.thrHigh = c.thrHigh)
      ∧ (w.regNumber ≠ 2 → k.risingEdge = c.risingEdge) ∧ (w.regNumber ≠ 3 → k.groupSize = c.groupSize)
      ∧ (w.regNumber ≠ 4 → k.msbFirst = c.msbFirst) ∧ (w.regNumber ≠ 5 → k.asHex = c.asHex) := by
  cases w <;> cases h <;> simp [CfgWrite.regNumber]

/-- Without a sample, only `START` reaches the data path; the flags are those of a protocol fault or of `END`. -/
theorem exec_control_update {i : Instr} {s t : State} (hi : isBeat i = false) (hs : i ≠ .start)
    (hx : exec i s = .next t) : ∃ c p f es, t = { s with cfg := c, phase := p, flags := f, events := es }
      ∧ (∀ e, e ≠ .proto → e ≠ .indiv → f.get e = s.flags.get e)
      ∧ (i ≠ .endRun → p = s.phase ∧ f.indiv = s.flags.indiv ∧ es = []) := by
  have hset {e' : ErrFlag} (e : ErrFlag) (he : e ≠ e') : (s.flags.set e').get e = s.flags.get e := by
    simp [he.symm]
  cases exec_cases hx with
  | idle | written => exact ⟨_, _, _, _, rfl, fun _ _ _ => rfl, fun _ => ⟨rfl, rfl, rfl⟩⟩
  | protocol => exact ⟨_, _, _, _, rfl, fun e hp _ => hset e hp, fun _ => ⟨rfl, rfl, rfl⟩⟩
  | closed _ _ f hf =>
    refine ⟨_, _, _, _, rfl, fun e _ hd => ?_, fun h => absurd rfl h⟩
    rw [hf, apply_ite (Flags.get · e), hset e hd, ite_self]
  | opened | notOpened => exact absurd rfl hs
  | clockOnly | dataOnly | gateClosed | noEdge | edge => cases hi

/-- Without a sample, `CFGW` alone writes the configuration, and nothing writes the actions to come. -/
theorem exec_control_host {i : Instr} {s t : State} (hi : isBeat i = false) (hx : exec i s = .next t) :
    t.inputs = s.inputs ∧ ((∀ w, i ≠ .cfgw w) → t.cfg = s.cfg) := by
  cases exec_cases hx with
  | idle | protocol | opened | notOpened | closed => exact ⟨rfl, fun _ => rfl⟩
  | written w => exact ⟨rfl, fun h => absurd rfl (h w)⟩
  | clockOnly | dataOnly | gateClosed | noEdge | edge => cases hi

/-- `CFGW` writes nothing, or the register it names. -/
theorem exec_cfgw_cfg {w : CfgWrite} {s t : State} (hx : exec (.cfgw w) s = .next t) :
    t.cfg = s.cfg ∨ s.cfg.write w = some t.cfg := by
  cases exec_cases hx with
  | protocol => exact .inl rfl
  | written _ _ _ _ hw => exact .inr hw

/-- Settles O21 from the update of an operation without a sample and the registers of `CFGW`. -/
theorem controlOperationFrame : Obligations.ControlOperationFrame := by
  intro i s t hi hx
  obtain ⟨hinputs, hcfg⟩ := exec_control_host hi hx
  refine ⟨hinputs, hcfg, fun hs => ?_, ?_⟩
  · obtain ⟨c, p, f, es, rfl, hf, hend⟩ := exec_control_update hi hs hx
    exact ⟨rfl, rfl, rfl, rfl, rfl, rfl, rfl, rfl, hf .ambigClk nofun nofun, hf .ambigDat nofun nofun,
      hf .len nofun nofun, hf .cfg nofun nofun, hend⟩
  · rintro w rfl
    obtain heq | hw := exec_cfgw_cfg hx
    · simp [heq]
    · exact CfgRegs.write_frame hw

end Sys2Proof.Machine
end

section
/-! PROOFS. 45_operations.md R130, R131 and R140 to R143: sequences of operations. No operation reads the strobes of the
step before, so `NOP`s change nothing but them (`quietTrace_filter_nop`); the result of a capture is read from the beats
between its `START` and its `END`, where each error of the source's pipeline is a flag. -/

namespace Sys2Proof.Machine

/-! ## Every action has an outcome -/

/-- Settles O56: a reset always answers, and an operation by `State.Inv.exec_exists`. -/
theorem everyActionHasAnOutcome : Obligations.EveryActionHasAnOutcome := by
  intro s h hs
  obtain ⟨x, rest, hx⟩ := List.exists_cons_of_ne_nil hs
  rw [step_cons hx]
  cases actionOf decode x with
  | reset => exact ⟨_, rfl⟩
  | op i => exact (h.withPorts s.events rest).exec_exists i

/-! ## Sequences with and without `NOP` -/

/-- No operation reads the strobes of the step before. -/
theorem exec_quiet (i : Instr) (s : State) : exec i s.quiet = exec i s := by
  cases i <;> rfl

/-- A trace behind the events `es` of the steps before it. -/
def traceAfter (es : List Event) : Trace → Trace
  | .next (t, es') => .next (t, es ++ es')
  | .fault r => .fault r
  | .refused r => .refused r

@[simp] theorem traceAfter_nil (x : Trace) : traceAfter [] x = x := by cases x <;> rfl

theorem runOps_cons_of_next {i : Instr} {s t : State} (hx : exec i s = .next t) (ops : List Instr) :
    runOps (i :: ops) s = traceAfter t.events (runOps ops t) := by
  simp only [runOps, hx]
  cases runOps ops t <;> rfl

/-- A trace with the strobes of its last step over. -/
def quietTrace : Trace → Trace
  | .next (t, es) => .next (t.quiet, es)
  | .fault r => .fault r
  | .refused r => .refused r

theorem quietTrace_traceAfter (es : List Event) (x : Trace) :
    quietTrace (traceAfter es x) = traceAfter es (quietTrace x) := by
  cases x <;> rfl

theorem quietTrace_eq_next {x : Trace} {t : State} {es : List Event} (h : quietTrace x = .next (t, es)) :
    ∃ u, x = .next (u, es) ∧ u.quiet = t := by
  cases x with
  | next p =>
    cases h
    exact ⟨p.1, rfl, rfl⟩
  | fault | refused => cases h

/-- A sequence of operations reads the strobes of the step before only to end with them, if it is empty. -/
theorem quietTrace_runOps_quiet (ops : List Instr) (s : State) :
    quietTrace (runOps ops s.quiet) = quietTrace (runOps ops s) := by
  cases ops with
  | nil => rfl
  | cons i ops => simp only [runOps, exec_quiet]

theorem quietTrace_runOps_cons {ops ops' : List Instr} (i : Instr)
    (h : ∀ s, quietTrace (runOps ops s) = quietTrace (runOps ops' s)) (s : State) :
    quietTrace (runOps (i :: ops) s) = quietTrace (runOps (i :: ops') s) := by
  cases hx : exec i s with
  | next t => simp only [runOps_cons_of_next hx, quietTrace_traceAfter, h]
  | fault | refused => simp only [runOps, hx]

/-- A sequence and the sequence without its `NOP`s, by induction on the operations. -/
theorem quietTrace_filter_nop (ops : List Instr) (s : State) :
    quietTrace (runOps (ops.filter fun i => i ≠ .nop) s) = quietTrace (runOps ops s) := by
  induction ops generalizing s with
  | nil => rfl
  | cons i ops ih =>
    by_cases hi : i = .nop
    · subst hi
      rw [List.filter_cons_of_neg (by simp), ih, runOps_cons_of_next rfl, State.quiet_events, traceAfter_nil,
        quietTrace_runOps_quiet]
    · rw [List.filter_cons_of_pos (by simpa using hi)]
      exact quietTrace_runOps_cons i ih s

/-- Settles O11: a trace and the trace without its `NOP`s differ in the strobes of the last step alone. -/
theorem nopChangesNothing : Obligations.NopChangesNothing := by
  refine ⟨fun s => rfl, fun ops s t es hrun => quietTrace_eq_next ?_⟩
  rw [quietTrace_filter_nop, hrun]
  rfl

/-! ## Sequences of beats -/

/-- One operation behind a sequence that has a next state. -/
theorem runOps_concat {ops : List Instr} {i : Instr} {s u t : State} {es : List Event}
    (hops : runOps ops s = .next (u, es)) (hx : exec i u = .next t) :
    runOps (ops ++ [i]) s = .next (t, es ++ t.events) := by
  induction ops generalizing s es with
  | nil =>
    cases hops
    simp [runOps, hx]
  | cons j ops ih =>
    obtain ⟨v, es', hj, hrest, rfl⟩ := runOps_cons_next hops
    rw [List.cons_append, runOps_cons_of_next hj, ih hrest, traceAfter, List.append_assoc]

/-- Beats and `NOP`s leave an open run open, with its configuration. -/
theorem runOps_beats_open {beats : List Instr} {s t : State} {es : List Event}
    (hb : ∀ i ∈ beats, isBeat i = true ∨ i = .nop) (hp : s.phase = .run) (hrun : runOps beats s = .next (t, es)) :
    t.phase = .run ∧ t.cfg = s.cfg := by
  induction beats generalizing s es with
  | nil =>
    cases hrun
    exact ⟨hp, rfl⟩
  | cons i beats ih =>
    obtain ⟨hi, hrest⟩ := List.forall_mem_cons.mp hb
    obtain ⟨u, es', hx, hr, -⟩ := runOps_cons_next hrun
    obtain ⟨hpu, hcu, -⟩ := exec_beat_digitizes hi hp hx
    obtain ⟨hpt, hct⟩ := ih hrest hpu hr
    exact ⟨hpt, hct.trans hcu⟩

section
variable {e : ErrFlag} (hclk : e ≠ .ambigClk) (hdat : e ≠ .ambigDat)
include hclk hdat

/-- Of the flags that are no ambiguity flags a beat in `RUN` sets `ERR_LEN`, if it is unpaired, and no other. -/
theorem exec_beat_flags_get_of_run {i : Instr} {s t : State} (hi : isBeat i = true) (hp : s.phase = .run)
    (hx : exec i s = .next t) : t.flags.get e = (s.flags.get e || (e == .len && !isPaired i)) := by
  by_cases hlen : e = .len ∧ isPaired i = false
  · obtain ⟨rfl, hu⟩ := hlen
    cases exec_cases hx with
    | idle | opened | notOpened | closed | written => cases hi
    | protocol _ _ h => simp [hp, isProtocolFault_of_beat (.inl hi)] at h
    | clockOnly | dataOnly => simp [isPaired, sampleOf?]
    | gateClosed | noEdge | edge => cases hu
  · have hkept : (e == .len && !isPaired i) = false := by simpa using hlen
    rw [hkept, Bool.or_false]
    exact exec_beat_flags_get hi hx (fun _ => hp) (fun he => by simpa [he] using hlen)
      fun ch he => absurd he (Chan.ambigFlag_ne_of hclk hdat ch)

theorem runOps_beats_flags_get {beats : List Instr} {s t : State} {es : List Event}
    (hb : ∀ i ∈ beats, isBeat i = true) (hp : s.phase = .run) (hrun : runOps beats s = .next (t, es)) :
    t.flags.get e = (s.flags.get e || (e == .len && !beats.all isPaired)) := by
  induction beats generalizing s es with
  | nil =>
    cases hrun
    simp
  | cons i beats ih =>
    obtain ⟨hi, hrest⟩ := List.forall_mem_cons.mp hb
    obtain ⟨u, es', hx, hr, -⟩ := runOps_cons_next hrun
    obtain ⟨hpu, -, -⟩ := exec_beat_digitizes (.inl hi) hp hx
    rw [ih hrest hpu hr, exec_beat_flags_get_of_run hclk hdat hi hp hx, List.all_cons, Bool.not_and,
      Bool.and_or_distrib_left, Bool.or_assoc]

end

/-! ## The beats of a capture -/

theorem captureBeats_nil (data : List SampleT) : captureBeats [] data = data.map .smpd := by simp [captureBeats]

theorem captureBeats_cons_nil (c : SampleT) (clock : List SampleT) :
    captureBeats (c :: clock) [] = .smpc c :: captureBeats clock [] := by simp [captureBeats]

theorem captureBeats_cons_cons (c d : SampleT) (clock data : List SampleT) :
    captureBeats (c :: clock) (d :: data) = .smp2 c d :: captureBeats clock data := by simp [captureBeats]

theorem isBeat_of_mem_captureBeats (clock data : List SampleT) : ∀ i ∈ captureBeats clock data, isBeat i = true := by
  induction clock generalizing data with
  | nil => simp [captureBeats_nil, isBeat, sampleOf?]
  | cons c clock ih =>
    cases data with
    | nil => simpa [captureBeats_cons_nil, isBeat, sampleOf?] using ih []
    | cons d data => simpa [captureBeats_cons_cons, isBeat, sampleOf?] using ih data

/-- The sequence that a capture presents to a channel. -/
def captureSamples (clock data : List SampleT) : Chan → List SampleT
  | .clk => clock
  | .dat => data

theorem channelSamples_cons (ch : Chan) (i : Instr) (ops : List Instr) :
    channelSamples ch (i :: ops) = (sampleOf? ch i).toList ++ channelSamples ch ops := by
  cases hv : sampleOf? ch i <;> simp [channelSamples, hv]

/-- The samples of the two sequences go to their channels (30_encoding.md R60). -/
theorem channelSamples_captureBeats (ch : Chan) (clock data : List SampleT) :
    channelSamples ch (captureBeats clock data) = captureSamples clock data ch := by
  induction clock generalizing data with
  | nil =>
    rw [captureBeats_nil, channelSamples, List.filterMap_map]
    cases ch <;> simp [captureSamples, Function.comp_def, sampleOf?]
  | cons c clock ih =>
    cases data with
    | nil =>
      rw [captureBeats_cons_nil, channelSamples_cons, ih]
      cases ch <;> rfl
    | cons d data =>
      rw [captureBeats_cons_cons, channelSamples_cons, ih]
      cases ch <;> rfl

/-- All beats of a capture are paired when the sequences have one length. -/
theorem all_isPaired_captureBeats (clock data : List SampleT) :
    (captureBeats clock data).all isPaired = decide (clock.length = data.length) := by
  induction clock generalizing data with
  | nil => cases data <;> simp [captureBeats_nil, isPaired, sampleOf?]
  | cons c clock ih =>
    cases data with
    | nil => simp [captureBeats_cons_nil, isPaired, sampleOf?]
    | cons d data => simp [captureBeats_cons_cons, ih, isPaired, sampleOf?]

/-- A capture up to its `END`: `u` is the state then, and `es` the events so far. -/
structure Captured (s : State) (clock data : List SampleT) (u : State) (es : List Event) : Prop where
  run : runOps (.start :: captureBeats clock data) s = .next (u, es)
  inv : u.Inv
  phase : u.phase = .run
  cfg : u.cfg = s.cfg
  digitized : ∀ ch, DigitizedBy s.cfg ch .reset (u.cmp ch) es (captureSamples clock data ch)
  flags : ∀ e, e ≠ .ambigClk → e ≠ .ambigDat →
    u.flags.get e = (e == .len && decide (clock.length ≠ data.length))

/-- With a legal configuration the beats of a capture never stop. -/
theorem exists_captured {s : State} (hp : s.phase ≠ .run) (hl : s.cfg.legal = true) (clock data : List SampleT) :
    ∃ u es, Captured s clock data u es := by
  have hb := isBeat_of_mem_captureBeats clock data
  obtain ⟨u, es, hrun, hinv, hd⟩ := runOps_start_digitizes _ hp hl fun i hi => .inl (hb i hi)
  obtain ⟨v, es', hstart, hbeats, rfl⟩ := runOps_cons_next hrun
  cases hstart.symm.trans (execStart_of_legal hp hl)
  obtain ⟨hphase, hcfg⟩ := runOps_beats_open (fun i hi => .inl (hb i hi)) rfl hbeats
  refine ⟨u, _, hrun, hinv, hphase, hcfg, fun ch => channelSamples_captureBeats ch clock data ▸ hd ch,
    fun e hclk hdat => ?_⟩
  rw [runOps_beats_flags_get hclk hdat hb rfl hbeats, all_isPaired_captureBeats]
  simp

/-! ## The pipeline on a capture -/

/-- `digitize` on the samples of a channel: its levels so far, or an error if its ambiguity flag is set. -/
theorem DigitizedBy.digitize {c : CfgRegs} {ch : Chan} {t : State} {es : List Event} {vs : List SampleT}
    (h : DigitizedBy c ch .reset (t.cmp ch) es vs) (ht : t.Inv) : digitize c.thrLow c.thrHigh vs
      = if t.flags.get ch.ambigFlag = true then .error .ambig else .ok (es.filterMap (Event.digBit? ch)) := by
  rw [digitize_eq, h.bits]
  simp only [h.flag_iff ht]

theorem length_digitizeFrom (lo hi : SampleT) (b : Bool) (vs : List SampleT) :
    (digitizeFrom lo hi b vs).length = vs.length := by
  induction vs generalizing b with
  | nil => rfl
  | cons v vs ih => rw [digitizeFrom_cons, List.length_cons, ih, List.length_cons]

/-- `digitize` gives one level a sample (R70). -/
theorem length_of_digitize {lo hi : SampleT} {vs : List SampleT} {q : List Bool} (h : digitize lo hi vs = .ok q) :
    q.length = vs.length := by
  cases vs with
  | nil => cases h; rfl
  | cons v vs =>
    simp only [Machine.digitize] at h
    split_ifs at h <;> cases h <;> simp [length_digitizeFrom]

/-- In a run so far with no flag set, the bits are those of `latch`. -/
theorem latch_of_runOps_start {beats : List Instr} {s t : State} {es : List Event} (hp : s.phase ≠ .run)
    (hl : s.cfg.legal = true) (hb : ∀ i ∈ beats, isBeat i = true ∨ i = .nop)
    (hrun : runOps (.start :: beats) s = .next (t, es)) (ha : t.flags.any = false) :
    latch (es.filterMap (Event.digBit? .clk)) (es.filterMap (Event.digBit? .dat)) s.cfg.risingEdge
      = .ok (es.filterMap Event.bit?) := by
  obtain ⟨v, es', hstart, hbeats, rfl⟩ := runOps_cons_next hrun
  cases hstart.symm.trans (execStart_of_legal hp hl)
  obtain ⟨hlen, hbits, -⟩ := runOps_beats_latches hb hbeats ha
  exact (EdgRegs.latch_eq_latched s.cfg.risingEdge hlen).trans (congrArg Except.ok hbits.symm)

namespace Captured
variable {s u : State} {clock data : List SampleT} {es : List Event} (h : Captured s clock data u es)
include h

/-- Of the flags that are no ambiguity flags, `ERR_LEN` tells the lengths apart and the others are clear. -/
theorem any_eq : u.flags.any = (u.flags.ambigClk || u.flags.ambigDat || u.flags.len) := by
  have hindiv : u.flags.indiv = false := h.flags .indiv nofun nofun
  have hcfg : u.flags.cfg = false := h.flags .cfg nofun nofun
  have hproto : u.flags.proto = false := h.flags .proto nofun nofun
  simp [Flags.any, hindiv, hcfg, hproto]

theorem len_iff : u.flags.len = true ↔ clock.length ≠ data.length := by
  have hlen : u.flags.len = decide (clock.length ≠ data.length) := h.flags .len nofun nofun
  rw [hlen, decide_eq_true_iff]

/-- With a flag set the pipeline ends with the error of its cause (R143). -/
theorem pipeline_of_flag (ha : u.flags.any = true) : pipeline s.cfg clock data = .error u.flags.cause := by
  have hcfg : u.flags.cfg = false := h.flags .cfg nofun nofun
  have hproto : u.flags.proto = false := h.flags .proto nofun nofun
  have hclk : digitize s.cfg.thrLow s.cfg.thrHigh clock = if u.flags.ambigClk = true then .error .ambig else _ :=
    (h.digitized .clk).digitize h.inv
  have hdat : digitize s.cfg.thrLow s.cfg.thrHigh data = if u.flags.ambigDat = true then .error .ambig else _ :=
    (h.digitized .dat).digitize h.inv
  rw [h.any_eq] at ha
  cases hc : u.flags.ambigClk with
  | true => simp [pipeline, Flags.cause, hclk, hcfg, hproto, hc]
  | false =>
    cases hd : u.flags.ambigDat with
    | true => simp [pipeline, Flags.cause, hclk, hdat, hcfg, hproto, hc, hd]
    | false =>
      have hlen : u.flags.len = true := by simpa [hc, hd] using ha
      rw [hc, if_neg Bool.false_ne_true] at hclk
      rw [hd, if_neg Bool.false_ne_true] at hdat
      have hne := h.len_iff.mp hlen
      rw [← length_of_digitize hclk, ← length_of_digitize hdat] at hne
      simp [pipeline, Flags.cause, latch, hclk, hdat, hcfg, hproto, hc, hd, hlen, hne]

/-- With no flag set it ends with what `decode` gives for the bits of the run. -/
theorem pipeline_of_no_flag (hp : s.phase ≠ .run) (hl : s.cfg.legal = true) (ha : u.flags.any = false) :
    pipeline s.cfg clock data
      = (decodeBits (es.filterMap Event.bit?) s.cfg.groupSize s.cfg.msbFirst s.cfg.asHex).mapError
          fun _ => .indivisible := by
  have hclk := (h.digitized .clk).digitize h.inv
  have hdat := (h.digitized .dat).digitize h.inv
  rw [Flags.get_of_any_eq_false ha, if_neg Bool.false_ne_true] at hclk hdat
  have hlatch := latch_of_runOps_start hp hl (fun i hi => .inl (isBeat_of_mem_captureBeats clock data i hi)) h.run ha
  simp only [captureSamples] at hclk hdat
  simp only [pipeline, hclk, hdat, hlatch]
  cases decodeBits (es.filterMap Event.bit?) s.cfg.groupSize s.cfg.msbFirst s.cfg.asHex <;> rfl

end Captured

/-! ## The result of a capture -/

/-- `END` in `RUN` leaves the comparators, closes the run and reports the cause (R136). -/
theorem exec_endRun_closes {s t : State} (hp : s.phase = .run) (hx : exec .endRun s = .next t) :
    t.clk = s.clk ∧ t.dat = s.dat ∧ t.phase = .done ∧ t.events = [.fin t.flags.cause] := by
  cases exec_cases hx with
  | protocol _ _ h => simp [isProtocolFault, hp] at h
  | closed => exact ⟨rfl, rfl, rfl, rfl⟩

/-- The cause after `END` is that of the flags before it or, if none was set, an unfinished group. -/
theorem exec_endRun_cause {s t : State} (hp : s.phase = .run) (hx : exec .endRun s = .next t) : t.flags.cause
    = if s.flags.any = true then s.flags.cause else if t.flags.indiv = true then .indivisible else .none := by
  cases hx.symm.trans (execEndRun_of_run hp rfl)
  cases ha : s.flags.any with
  | true => simp
  | false =>
    have hclear : s.flags = .clear := Flags.eq_of_get fun e => by simp [Flags.get_of_any_eq_false ha e]
    simp [hclear, Flags.cause, Flags.clear]

theorem resultOf_agrees_error {t : State} {es : List Event} {c : Cause} (h : t.flags.cause = c) (hc : c ≠ .none) :
    (resultOf t es).agrees (.error c) := by
  unfold resultOf
  rw [h]
  cases c with
  | none => exact absurd rfl hc
  | ambigClk | ambigDat | lenMismatch | indivisible | badConfig | protocol => rfl

theorem resultOf_agrees_ok {t : State} {es : List Event} {o : List OutElem} (h : t.flags.cause = .none)
    (ho : outputOf t.cfg.asHex es = o) : (resultOf t es).agrees (.ok o) := by
  unfold resultOf
  rw [h]
  exact ho

/-- A `FIN` is no output. -/
theorem outputOf_append_fin (x : Bool) (es : List Event) (c : Cause) : outputOf x (es ++ [.fin c]) = outputOf x es := by
  rw [outputOf_append]
  cases x <;> exact List.append_nil _

/-- The block has the result of the pipeline on a capture. -/
theorem capture_agrees (clock data : List SampleT) {s : State} (hp : s.phase ≠ .run) (hl : s.cfg.legal = true) :
    ∃ t es, runOps (capture clock data) s = .next (t, es) ∧ (resultOf t es).agrees (pipeline s.cfg clock data)
      ∧ t.clk.n = clock.length ∧ t.dat.n = data.length := by
  obtain ⟨u, es, h⟩ := exists_captured hp hl clock data
  obtain ⟨t, hx⟩ := h.inv.exec_exists .endRun
  obtain ⟨hclk, hdat, -, hevents⟩ := exec_endRun_closes h.phase hx
  have hcause := exec_endRun_cause h.phase hx
  refine ⟨t, es ++ t.events, runOps_concat h.run hx, ?_, ?_, ?_⟩
  · cases ha : u.flags.any with
    | true =>
      rw [ha, if_pos rfl] at hcause
      rw [h.pipeline_of_flag ha]
      exact resultOf_agrees_error hcause fun hn => by simp [Flags.any_of_cause_none hn] at ha
    | false =>
      rw [ha, if_neg Bool.false_ne_true] at hcause
      obtain ⟨t', hx', -, hok, herr⟩ := runDecodesItsBits _ s u es _ hp hl
        (fun i hi => .inl (isBeat_of_mem_captureBeats clock data i hi)) h.run ha rfl
      cases hx.symm.trans hx'
      have hcfg : t.cfg = s.cfg := (exec_cfg_of_run h.phase hx).trans h.cfg
      rw [h.pipeline_of_no_flag hp hl ha]
      cases hdec : decodeBits (es.filterMap Event.bit?) s.cfg.groupSize s.cfg.msbFirst s.cfg.asHex with
      | ok o =>
        obtain ⟨hout, -, hindiv⟩ := hok o hdec
        rw [hindiv, if_neg Bool.false_ne_true] at hcause
        exact resultOf_agrees_ok hcause (by rw [hevents, outputOf_append_fin, hcfg, hout])
      | error r =>
        rw [herr r hdec, if_pos rfl] at hcause
        exact resultOf_agrees_error hcause nofun
  · rw [hclk]
    exact (h.digitized .clk).n_eq
  · rw [hdat]
    exact (h.digitized .dat).n_eq

/-- The result of a run does not read the strobes of its last step: it is told its events. -/
theorem resultOf_quiet (t : State) (es : List Event) : resultOf t.quiet es = resultOf t es := rfl

/-- Settles O49: stepping is executing, and neither the `NOP`s nor the strobes of the last step reach the result. -/
theorem captureEqualsThePipeline : Obligations.CaptureEqualsThePipeline := by
  intro clock data ops s hp hl hops
  obtain ⟨t, es, hrun, hagree, hclk, hdat⟩ := capture_agrees clock data (s := s.withInputs []) hp hl
  have hnop := quietTrace_filter_nop ops (s.withInputs [])
  rw [hops, hrun] at hnop
  obtain ⟨t', hrun', ht⟩ := quietTrace_eq_next hnop.symm
  have hresult : resultOf t' es = resultOf t es := by rw [← resultOf_quiet, ht, resultOf_quiet]
  refine ⟨t', es, (runSteps_presenting ops s).trans hrun', hresult ▸ hagree, ?_, ?_⟩
  · exact (congrArg (·.clk.n) ht).trans hclk
  · exact (congrArg (·.dat.n) ht).trans hdat

/-! ## The observer -/

theorem watchActions_cons_of_next {a : Action} {s t : State} (h : perform a s = .next t) (acts : List Action)
    (w : Watch) : watchActions (a :: acts) s w = watchActions acts t (w.observe a s t) := by
  simp only [watchActions, h]

/-- A step of an open run that does not end it. -/
theorem Watch.observe_open {i : Instr} {t : State} (hi : i ≠ .start) (ht : t.phase = .run) (es : List Event)
    (rs : List RunResult) (s : State) :
    Watch.observe ⟨some es, rs⟩ (.op i) s t = ⟨some (es ++ t.events), rs⟩ := by
  simp [Watch.observe, Watch.extend, hi, ht]

/-- Through beats and `NOP`s the observer collects the events of the open run. -/
theorem watchActions_beats {beats : List Instr} {s t : State} {es : List Event}
    (hb : ∀ i ∈ beats, isBeat i = true ∨ i = .nop) (hp : s.phase = .run) (hrun : runOps beats s = .next (t, es))
    (acts : List Action) (es₀ : List Event) (rs : List RunResult) :
    watchActions (beats.map .op ++ acts) s ⟨some es₀, rs⟩ = watchActions acts t ⟨some (es₀ ++ es), rs⟩ := by
  induction beats generalizing s es es₀ with
  | nil =>
    cases hrun
    simp
  | cons i beats ih =>
    obtain ⟨hi, hrest⟩ := List.forall_mem_cons.mp hb
    obtain ⟨u, es', hx, hr, rfl⟩ := runOps_cons_next hrun
    obtain ⟨hpu, -, -⟩ := exec_beat_digitizes hi hp hx
    rw [List.map_cons, List.cons_append, watchActions_cons_of_next (a := .op i) hx,
      Watch.observe_open (ne_start_of_beat hi) hpu, ih hrest hpu hr, List.append_assoc]

/-- Settles O50: `START` opens the run, the beats collect its events, and `END` leaves `DONE`. -/
theorem observerSeesOneResultPerRun : Obligations.ObserverSeesOneResultPerRun := by
  refine ⟨fun clock data s t es w hp hl hrun => ?_, fun s w hp hl => ?_, fun s w => rfl⟩
  · obtain ⟨v, es, hstart, hops, rfl⟩ := runOps_cons_next hrun
    obtain ⟨u, es, hbeats, hend, rfl⟩ := runOps_concat_next hops
    cases hstart.symm.trans (execStart_of_legal hp hl)
    have hb : ∀ i ∈ captureBeats clock data, isBeat i = true ∨ i = .nop :=
      fun i hi => .inl (isBeat_of_mem_captureBeats clock data i hi)
    obtain ⟨hpu, -⟩ := runOps_beats_open hb rfl hbeats
    obtain ⟨-, -, hdone, -⟩ := exec_endRun_closes hpu hend
    have hopened : w.observe (.op .start) s { s.quiet.clearRun with phase := .run } = ⟨some [], w.results⟩ := by
      simp [Watch.observe, Watch.extend, hp]
    have hclosed (es : List Event) : Watch.observe ⟨some es, w.results⟩ (.op .endRun) u t
        = ⟨none, w.results ++ [resultOf t (es ++ t.events)]⟩ := by
      simp [Watch.observe, Watch.extend, hdone]
    rw [capture, List.map_cons, List.map_append, watchActions_cons_of_next (a := .op .start) hstart, hopened,
      watchActions_beats hb rfl hbeats, List.map_singleton, watchActions_cons_of_next (a := .op .endRun) hend, hclosed]
    rfl
  · obtain ⟨t, hx⟩ : ∃ t, exec .start s = .next t := ⟨_, execStart_of_illegal hp hl⟩
    refine ⟨t, ?_⟩
    rw [watchActions_cons_of_next (a := .op .start) hx]
    cases hx.symm.trans (execStart_of_illegal hp hl)
    simp [watchActions, Watch.observe, Watch.extend, hp, resultOf, Flags.cause, Flags.set, Flags.clear]

end Sys2Proof.Machine
end

section
/-! PROOFS. 60_exceptions.md: what raises each flag, what a set flag stops, and what the counters count. An operation
that is not a `START` outside `RUN` sets the flags whose cause it is (`State.raises`, R162 to R167) and gives each
channel the sample it takes (`takenSample`); such a `START` clears the flags and tests the configuration. -/

namespace Sys2Proof.Machine

/-! ## Samples taken -/

/-- The sample of `ch` that the operation gives to its comparator in `s`: the one it carries, in `RUN` alone. -/
def takenSample (ch : Chan) (i : Instr) (s : State) : Option SampleT :=
  if s.phase = .run then sampleOf? ch i else none

theorem takenSample_of_run {s : State} (hp : s.phase = .run) (ch : Chan) (i : Instr) :
    takenSample ch i s = sampleOf? ch i := if_pos hp

theorem takenSample_eq_some {ch : Chan} {i : Instr} {s : State} {v : SampleT} :
    takenSample ch i s = some v ↔ s.phase = .run ∧ sampleOf? ch i = some v := by
  simp [takenSample]

theorem length_takenSample (ch : Chan) (i : Instr) (s : State) : (takenSample ch i s).toList.length
    = if s.phase = .run ∧ (sampleOf? ch i).isSome = true then 1 else 0 := by
  unfold takenSample
  by_cases hp : s.phase = .run
  · cases sampleOf? ch i <;> simp [hp]
  · simp [hp]

theorem isBeat_of_sampleOf? {ch : Chan} {i : Instr} (h : (sampleOf? ch i).isSome = true) : isBeat i = true := by
  cases ch <;> simp [isBeat, h]

theorem takenSample_of_not_beat {i : Instr} (hi : isBeat i = false) (ch : Chan) (s : State) :
    takenSample ch i s = none := by
  by_contra h
  obtain ⟨v, hv⟩ := Option.ne_none_iff_exists'.mp h
  obtain ⟨-, hv⟩ := takenSample_eq_some.mp hv
  simp [isBeat_of_sampleOf? (Option.isSome_of_eq_some hv)] at hi

/-- An operation that is illegal in its phase is no beat in `RUN`. -/
theorem not_beat_in_run_of_protocolFault {i : Instr} {s : State} (h : isProtocolFault i s.phase = true) :
    ¬(s.phase = .run ∧ isBeat i = true) := fun ⟨hp, hi⟩ => by
  simp [hp, isProtocolFault_of_beat (.inl hi)] at h

theorem takenSample_of_protocolFault {i : Instr} {s : State} (h : isProtocolFault i s.phase = true) (ch : Chan) :
    takenSample ch i s = none := by
  by_cases hp : s.phase = .run
  · have hi : isBeat i = false := Bool.eq_false_iff.mpr fun hi => not_beat_in_run_of_protocolFault h ⟨hp, hi⟩
    exact takenSample_of_not_beat hi ch s
  · exact if_neg hp

/-- An operation that is not a `START` outside `RUN` gives each channel the sample it takes, if any, and shows the level
of that channel then, if it is defined, and at no other time. -/
theorem exec_digitizes {i : Instr} {s t : State} (hx : exec i s = .next t) (hs : i = .start → s.phase = .run)
    (ch : Chan) :
    DigitizedBy s.cfg ch (s.cmp ch) (t.cmp ch) t.events (takenSample ch i s).toList := by
  have hbeat (hi : isBeat i = true) (hp : s.phase = .run) := (exec_beat_digitizes (.inl hi) hp hx).2.2 ch
  cases exec_cases hx with
  | idle | closed | written =>
    rw [takenSample_of_not_beat rfl]
    cases ch <;> exact ⟨rfl, rfl⟩
  | protocol _ _ h =>
    rw [takenSample_of_protocolFault h]
    cases ch <;> exact ⟨rfl, rfl⟩
  | opened _ hp | notOpened _ hp => exact absurd (hs rfl) hp
  | clockOnly _ _ hp | dataOnly _ _ hp | gateClosed _ _ _ hp | noEdge _ _ _ _ _ hp | edge _ _ _ _ _ hp =>
    rw [takenSample_of_run hp]
    exact hbeat rfl hp

theorem dig_mem_iff {ch : Chan} {b : Bool} {es : List Event} :
    Event.dig ch b ∈ es ↔ b ∈ es.filterMap (Event.digBit? ch) := by
  refine ⟨fun h => List.mem_filterMap.mpr ⟨_, h, by simp [Event.digBit?]⟩, fun h => ?_⟩
  obtain ⟨e, he, hb⟩ := List.mem_filterMap.mp h
  cases e with
  | dig ch' b' =>
    simp only [Event.digBit?, Option.ite_none_right_eq_some, Option.some.injEq] at hb
    obtain ⟨rfl, rfl⟩ := hb
    exact he
  | edge | bit | val | hex | fin => cases hb

namespace DigitizedBy
variable {c : CfgRegs} {ch : Chan} {r r' : CmpRegs} {es : List Event} {v : SampleT}

theorem eq_of_none (h : DigitizedBy c ch r r' es []) : r' = r ∧ ∀ b, Event.dig ch b ∉ es :=
  ⟨h.regs, fun b hb => by simpa [h.bits, CmpRegs.levels] using dig_mem_iff.mp hb⟩

theorem eq_of_sample (h : DigitizedBy c ch r r' es [v]) :
    r' = r.sample c v ∧ ∀ b, Event.dig ch b ∈ es ↔ r'.hs.bit? = some b :=
  ⟨h.regs, fun b => by rw [dig_mem_iff, h.bits, h.regs]; simp [CmpRegs.levels]⟩

end DigitizedBy

/-! ## What raises a flag -/

/-- A configuration that a `START` refuses (R166): `GROUP_MAX` is unbounded here. -/
theorem CfgRegs.legal_eq_false_iff (c : CfgRegs) : c.legal = false ↔ c.thrHigh < c.thrLow ∨ c.groupSize < 1 := by
  rw [← Bool.not_eq_true, CfgRegs.legal_iff, not_and_or, not_le, not_le]

/-- The operation is the cause of the flag (R162 to R167), where it is not a `START` outside `RUN`. -/
def State.raises (s : State) (i : Instr) : ErrFlag → Bool
  | .ambigClk => (takenSample .clk i s).any (isAmbiguous s.cfg.thrLow s.cfg.thrHigh s.clk)
  | .ambigDat => (takenSample .dat i s).any (isAmbiguous s.cfg.thrLow s.cfg.thrHigh s.dat)
  | .len => s.phase == .run && isBeat i && !isPaired i
  | .indiv => i == .endRun && s.phase == .run && !s.flags.any && s.cnt != 0
  | .cfg => false
  | .proto => isProtocolFault i s.phase

theorem State.raises_ambigFlag (s : State) (i : Instr) (ch : Chan) : s.raises i ch.ambigFlag
    = (takenSample ch i s).any (isAmbiguous s.cfg.thrLow s.cfg.thrHigh (s.cmp ch)) := by
  cases ch <;> rfl

/-- An illegal operation is the cause of `ERR_PROTO` alone. -/
theorem State.raises_of_protocolFault {s : State} {i : Instr} (h : isProtocolFault i s.phase = true) (e : ErrFlag) :
    s.raises i e = (ErrFlag.proto == e) := by
  cases e with
  | ambigClk | ambigDat => simp [State.raises, takenSample_of_protocolFault h]
  | len =>
    have hbeat : (s.phase == .run && isBeat i) = false := by simpa using not_beat_in_run_of_protocolFault h
    rw [State.raises, hbeat]
    rfl
  | indiv =>
    have hend : (i == .endRun && s.phase == .run) = false := by
      by_contra hc
      simp only [Bool.not_eq_false, Bool.and_eq_true, beq_iff_eq] at hc
      simp [hc, isProtocolFault] at h
    rw [State.raises, hend]
    rfl
  | cfg => rfl
  | proto => exact h

/-- Without a sample, an operation that is legal in its phase is the cause of `ERR_INDIV` at most (R165). -/
theorem State.raises_of_not_beat {s : State} {i : Instr} (hi : isBeat i = false)
    (h : isProtocolFault i s.phase = false) (e : ErrFlag) : s.raises i e
      = (i == .endRun && s.phase == .run && !s.flags.any && s.cnt != 0 && ErrFlag.indiv == e) := by
  cases e <;> simp [State.raises, takenSample_of_not_beat hi, hi, h, beq_eq_decide]

/-- A write that outside `RUN` reaches a register is legal there. -/
theorem isProtocolFault_of_write {c k : CfgRegs} {w : CfgWrite} {p : Phase} (hw : c.write w = some k)
    (hp : p ≠ .run) : isProtocolFault (.cfgw w) p = false := by
  cases w with
  | reserved => cases hw
  | thrLow | thrHigh | risingEdge | groupSize | msbFirst | asHex => exact beq_false_of_ne hp

/-- A beat in `RUN` sets the ambiguity flag of a channel if its sample is an ambiguous one (R162, R163). -/
theorem exec_beat_ambigFlag {i : Instr} {s t : State} (hi : isBeat i = true) (hp : s.phase = .run)
    (hx : exec i s = .next t) (ch : Chan) : t.flags.get ch.ambigFlag
      = (s.flags.get ch.ambigFlag || (sampleOf? ch i).any (isAmbiguous s.cfg.thrLow s.cfg.thrHigh (s.cmp ch))) := by
  cases exec_cases hx with
  | idle | opened | notOpened | closed | written => cases hi
  | protocol _ _ h => exact absurd ⟨hp, hi⟩ (not_beat_in_run_of_protocolFault h)
  | clockOnly | dataOnly => cases ch <;> simp [cmpStep_flags_get, sampleOf?, Chan.ambigFlag, beq_eq_decide]
  | gateClosed | noEdge | edge =>
    cases ch <;> simp [edgeBeat, afterComparators, cmpStep_flags_get, sampleOf?, Chan.ambigFlag, beq_eq_decide]

/-- A beat in `RUN` sets the flags whose cause it is. -/
theorem exec_beat_raises {i : Instr} {s t : State} (hi : isBeat i = true) (hp : s.phase = .run)
    (hx : exec i s = .next t) (e : ErrFlag) : t.flags.get e = (s.flags.get e || s.raises i e) := by
  have hfault := isProtocolFault_of_beat (.inl hi)
  have hend : i ≠ .endRun := by
    rintro rfl
    cases hi
  cases e with
  | ambigClk =>
    rw [State.raises, takenSample_of_run hp]
    exact exec_beat_ambigFlag hi hp hx .clk
  | ambigDat =>
    rw [State.raises, takenSample_of_run hp]
    exact exec_beat_ambigFlag hi hp hx .dat
  | len | indiv | cfg | proto =>
    rw [exec_beat_flags_get_of_run (by decide) (by decide) hi hp hx]
    simp [State.raises, hp, hi, hfault, hend, beq_eq_decide]

/-- Every operation that is not a `START` outside `RUN` keeps the flags and sets those whose cause it is. -/
theorem exec_flags_get {i : Instr} {s t : State} (hx : exec i s = .next t) (hs : i = .start → s.phase = .run)
    (e : ErrFlag) : t.flags.get e = (s.flags.get e || s.raises i e) := by
  cases exec_cases hx with
  | idle =>
    rw [State.raises_of_not_beat rfl rfl]
    exact (Bool.or_false _).symm
  | protocol _ _ h =>
    rw [State.raises_of_protocolFault h]
    exact Flags.get_set ..
  | opened _ hp | notOpened _ hp => exact absurd (hs rfl) hp
  | closed _ hp f hf =>
    have hlegal : isProtocolFault .endRun s.phase = false := by simp [isProtocolFault, hp]
    have hraises : s.raises .endRun e = (!s.flags.any && s.cnt != 0 && ErrFlag.indiv == e) := by
      simp [State.raises_of_not_beat rfl hlegal, hp]
    rw [hraises, hf]
    cases !s.flags.any && s.cnt != 0 <;> simp
  | written _ _ _ hp hw =>
    rw [State.raises_of_not_beat rfl (isProtocolFault_of_write hw hp)]
    exact (Bool.or_false _).symm
  | clockOnly _ _ hp | dataOnly _ _ hp | gateClosed _ _ _ hp | noEdge _ _ _ _ _ hp | edge _ _ _ _ _ hp =>
    exact exec_beat_raises rfl hp hx e

/-- A `START` outside `RUN` leaves no flag set but `ERR_CFG`, which tells an illegal configuration. -/
theorem exec_start_flags_get {s t : State} (hp : s.phase ≠ .run) (hx : exec .start s = .next t) (e : ErrFlag) :
    t.flags.get e = (ErrFlag.cfg == e && !s.cfg.legal) := by
  cases exec_cases hx with
  | protocol _ _ h => exact absurd (beq_iff_eq.mp h) hp
  | opened _ _ hl | notOpened _ _ hl => simp [hl]

/-! ## The statements on single flags -/

theorem cmpFirst_undet_iff {lo hi v : SampleT} : cmpFirst lo hi v = .undet ↔ lo < v ∧ v < hi := by
  unfold cmpFirst
  split_ifs with hh hl
  · simp [not_lt.mpr hh]
  · simp [not_lt.mpr hl]
  · simp [not_le.mp hl, not_le.mp hh]

/-- An ambiguous sample is a first one strictly between the thresholds (R162). -/
theorem isAmbiguous_iff_between {lo hi v : SampleT} {r : CmpRegs} :
    isAmbiguous lo hi r v = true ↔ r.n = 0 ∧ lo < v ∧ v < hi := by
  rw [isAmbiguous_iff]
  exact and_congr_right fun hn => by rw [cmpNext_first hn, cmpFirst_undet_iff]

/-- A flag that an operation sets, where it is not a `START` outside `RUN`, has that operation for its cause. -/
theorem exec_raises_of_set {i : Instr} {s t : State} (hx : exec i s = .next t) (hs : i = .start → s.phase = .run)
    {e : ErrFlag} (hf : s.flags.get e = false) (ht : t.flags.get e = true) : s.raises i e = true := by
  rwa [exec_flags_get hx hs, hf, Bool.false_or] at ht

/-- A `START` outside `RUN` sets no flag but `ERR_CFG`. -/
theorem start_of_set {i : Instr} {s t : State} (hx : exec i s = .next t) {e : ErrFlag} (he : e ≠ .cfg)
    (ht : t.flags.get e = true) : i = .start → s.phase = .run := by
  rintro rfl
  by_contra hp
  simp [exec_start_flags_get hp hx, he.symm] at ht

/-- Settles O27: the flag is set by its cause alone, and behind the first sample an undefined level stays so. -/
theorem ambiguousSampleIsAFirstSample : Obligations.AmbiguousSampleIsAFirstSample := by
  intro ch i s t hx
  refine ⟨fun hf ht => ?_, fun v hp hn hv hlo hhi => ?_, fun hs hn hu => ?_⟩
  · have hs := start_of_set hx (by cases ch <;> decide) ht
    have hraise := exec_raises_of_set hx hs hf ht
    rw [State.raises_ambigFlag, Option.any_eq_true] at hraise
    obtain ⟨v, hv, ha⟩ := hraise
    have hd := exec_digitizes hx hs ch
    rw [hv] at hd
    obtain ⟨hn, hu⟩ := isAmbiguous_iff.mp ha
    refine ⟨hn, ?_, v, (takenSample_eq_some.mp hv).2, (isAmbiguous_iff_between.mp ha).2⟩
    rw [hd.eq_of_sample.1, CmpRegs.sample, hu, hn]
  · have hs : i = .start → s.phase = .run := fun _ => hp
    have ha := isAmbiguous_iff_between.mpr ⟨hn, hlo, hhi⟩
    have hd := exec_digitizes hx hs ch
    rw [takenSample_of_run hp, hv] at hd
    obtain ⟨hr, hdig⟩ := hd.eq_of_sample
    have hu : (t.cmp ch).hs = .undet := by
      rw [hr]
      exact (isAmbiguous_iff.mp ha).2
    refine ⟨?_, hu, fun b => ?_⟩
    · simp [exec_flags_get hx hs, State.raises_ambigFlag, takenSample_of_run hp, hv, ha]
    · simp [hdig, hu, Hyst.bit?]
  · have hd := exec_digitizes hx hs ch
    cases hv : takenSample ch i s with
    | none =>
      rw [hv] at hd
      obtain ⟨hr, hdig⟩ := hd.eq_of_none
      exact ⟨hr ▸ hu, hdig⟩
    | some v =>
      rw [hv] at hd
      obtain ⟨hr, hdig⟩ := hd.eq_of_sample
      have hu' : (t.cmp ch).hs = .undet := by simp [hr, CmpRegs.sample, cmpNext_later hn, hu]
      exact ⟨hu', fun b => by simp [hdig, hu', Hyst.bit?]⟩

/-- Settles O28: the cause of `ERR_LEN`; under `CAPTURE` the beats tell the lengths apart, and `END` is no cause. -/
theorem lengthMismatchIsAnUnpairedBeat : Obligations.LengthMismatchIsAnUnpairedBeat := by
  have hlen {i : Instr} {s t : State} (hx : exec i s = .next t) (hs : i = .start → s.phase = .run) :
      t.flags.len = true ↔ s.flags.len = true ∨ (s.phase = .run ∧ isBeat i = true ∧ isPaired i = false) := by
    have hget : t.flags.len = (s.flags.len || (s.phase == .run && isBeat i && !isPaired i)) :=
      exec_flags_get hx hs .len
    simp [hget, and_assoc]
  refine ⟨fun i s t => hlen, fun clock data s t es hp hl hrun => ?_⟩
  obtain ⟨u, es', h⟩ := exists_captured hp hl clock data
  obtain ⟨v, hx⟩ := h.inv.exec_exists .endRun
  cases hrun.symm.trans (runOps_concat h.run hx)
  obtain ⟨hclk, hdat, -, -⟩ := exec_endRun_closes h.phase hx
  refine ⟨?_, ?_, ?_⟩
  · rw [hlen hx nofun, ← h.len_iff]
    simp [isBeat, sampleOf?]
  · rw [hclk]
    exact (h.digitized .clk).n_eq
  · rw [hdat]
    exact (h.digitized .dat).n_eq

/-- Settles O29: the cause of `ERR_INDIV`; the invariant keeps `n_bits = n_vals * GROUP_SIZE + cnt` with
`cnt < GROUP_SIZE`. -/
theorem indivisibleIsFoundAtEnd : Obligations.IndivisibleIsFoundAtEnd := by
  refine ⟨fun i s t hx hf => ?_, fun s h hp => ?_⟩
  · by_cases hs : i = .start → s.phase = .run
    · have hget : t.flags.indiv
          = (s.flags.indiv || (i == .endRun && s.phase == .run && !s.flags.any && s.cnt != 0)) :=
        exec_flags_get hx hs .indiv
      simp [hget, hf, and_assoc]
    · obtain ⟨rfl, hp⟩ := Classical.not_imp.mp hs
      have hget : t.flags.indiv = false := exec_start_flags_get hp hx .indiv
      simp [hget]
  · obtain ⟨hlt, hbits⟩ := h.groupsRun hp
    rw [hbits, Nat.mul_add_mod', Nat.mod_eq_of_lt hlt]

/-- Settles O30: no operation but a `START` outside `RUN` is a cause of `ERR_CFG`, and that one tests the
configuration. -/
theorem badConfigIsFoundAtStart : Obligations.BadConfigIsFoundAtStart := by
  intro i s t hx
  rw [← CfgRegs.legal_eq_false_iff]
  refine ⟨fun hf => ?_, ?_⟩
  · by_cases hs : i = .start → s.phase = .run
    · have hget : t.flags.cfg = (s.flags.cfg || false) := exec_flags_get hx hs .cfg
      rw [hget, hf]
      exact iff_of_false nofun fun ⟨hi, hp, _⟩ => hp (hs hi)
    · obtain ⟨rfl, hp⟩ := Classical.not_imp.mp hs
      have hget : t.flags.cfg = !s.cfg.legal := exec_start_flags_get hp hx .cfg
      simp [hget, hp]
  · rintro rfl hp hl
    cases hx.symm.trans (execStart_of_illegal hp hl)
    exact ⟨rfl, rfl, rfl⟩

/-! ## The gate -/

/-- The comparators emit `DIG` alone. -/
theorem dig_of_mem_cmpStep {ch : Chan} {v : SampleT} {s : State} {e : Event}
    (h : e ∈ (cmpStep ch v s.quiet).events) : ∃ ch b, e = .dig ch b := by
  simp only [cmpStep_events, State.quiet_events, List.nil_append, Option.mem_toList,
    Option.map_eq_some_iff] at h
  obtain ⟨b, -, rfl⟩ := h
  exact ⟨ch, b, rfl⟩

theorem dig_of_mem_afterComparators {c d : SampleT} {s : State} {e : Event}
    (h : e ∈ (afterComparators c d s).events) : ∃ ch b, e = .dig ch b := by
  simp only [afterComparators_events, List.mem_append, Option.mem_toList, Option.map_eq_some_iff] at h
  obtain ⟨b, -, rfl⟩ | ⟨b, -, rfl⟩ := h
  · exact ⟨.clk, b, rfl⟩
  · exact ⟨.dat, b, rfl⟩

/-- A beat that leaves a flag set: behind the comparators nothing moves, and no event but `DIG` is emitted. -/
theorem exec_beat_of_flag {i : Instr} {s t : State} (hi : isBeat i = true) (hx : exec i s = .next t)
    (ha : t.flags.any = true) : Held s t ∧ t.lbit = s.lbit ∧ ∀ e ∈ t.events, ∃ ch b, e = .dig ch b := by
  cases exec_cases hx with
  | idle | opened | notOpened | closed | written => cases hi
  | protocol => exact ⟨⟨rfl, rfl, rfl, rfl, rfl⟩, rfl, nofun⟩
  | clockOnly | dataOnly =>
    obtain ⟨hh, hb⟩ := exec_unpaired_held hi hx rfl
    exact ⟨hh, hb, fun e => dig_of_mem_cmpStep⟩
  | gateClosed c d =>
    exact ⟨held_afterComparators c d s, afterComparators_lbit c d s, fun e => dig_of_mem_afterComparators⟩
  | noEdge _ _ _ _ _ _ _ hf | edge _ _ _ _ _ _ _ hf => exact absurd (hf.symm.trans ha) Bool.false_ne_true

/-- Settles O22: a closed gate by `exec_beat_of_flag`, and the comparators by `exec_digitizes`. -/
theorem setFlagClosesTheGate : Obligations.SetFlagClosesTheGate := by
  refine ⟨fun i s t hi hx ha => ?_, fun s hp ha => execEndRun_of_run hp (by simp [ha])⟩
  obtain ⟨⟨hedg, hsh, hcnt, hnBits, hnVals⟩, hlbit, hev⟩ := exec_beat_of_flag hi hx ha
  refine ⟨hedg, hlbit, hsh, hcnt, hnBits, hnVals, hev, fun hp ch v hv => ?_⟩
  have hd := exec_digitizes hx (fun _ => hp) ch
  rw [takenSample_of_run hp, hv] at hd
  obtain ⟨hr, hdig⟩ := hd.eq_of_sample
  exact ⟨by rw [hr]; rfl, by rw [hr]; rfl, fun b => (hdig b).mpr⟩

/-! ## The counters -/

/-- `n_bits` and `n_vals` rise by the bits and values that the step emits. -/
structure Counted (s t : State) : Prop where
  bits : t.nBits = s.nBits + (t.events.filterMap Event.bit?).length
  vals : t.nVals = s.nVals + (t.events.filterMap Event.val?).length

theorem Held.counted {s t : State} (h : Held s t) (hes : ∀ e ∈ t.events, e.rank < 3) : Counted s t := by
  obtain ⟨hbit, hval, -⟩ := filterMap_of_rank_lt hes
  exact ⟨by rw [h.nBits, hbit]; rfl, by rw [h.nVals, hval]; rfl⟩

/-- A latched bit is counted, and so is the value of a group that it completes. -/
theorem Held.counted_edgeBeat {s u : State} (h : Held s u) (hes : ∀ e ∈ u.events, e.rank < 3) (qc qd : Bool) :
    Counted s (edgeBeat qc qd u) := by
  obtain ⟨hbit, hval, -⟩ := filterMap_of_rank_lt hes
  constructor
  · simp [edgeBeat, hbit, h.nBits, List.filterMap_cons, Event.bit?]
  · by_cases hg : u.cnt + 1 = u.cfg.groupSize <;>
      simp [edgeBeat, hval, h.nVals, hg, List.filterMap_cons, Event.val?, filterMap_val?_groupEvents]

theorem exec_counted {i : Instr} {s t : State} (hx : exec i s = .next t) (hs : i = .start → s.phase = .run) :
    Counted s t := by
  cases exec_cases hx with
  | idle | protocol | closed | written => exact ⟨rfl, rfl⟩
  | opened _ hp | notOpened _ hp => exact absurd (hs rfl) hp
  | clockOnly | dataOnly => exact (exec_unpaired_held rfl hx rfl).1.counted (rank_cmpStep_lt _ _ s)
  | gateClosed c d => exact (held_afterComparators c d s).counted (rank_afterComparators_lt c d s)
  | noEdge c d =>
    obtain ⟨hbits, hvals⟩ := (held_afterComparators c d s).counted (rank_afterComparators_lt c d s)
    exact ⟨hbits, hvals⟩
  | edge c d _ qc qd =>
    exact (held_afterComparators c d s).counted_edgeBeat (rank_afterComparators_lt c d s) qc qd

/-- Settles O26: the sample counters by `exec_digitizes`, the others by `exec_counted`. -/
theorem countersCountTheirEvents : Obligations.CountersCountTheirEvents := by
  refine ⟨fun i s t hx hs => ⟨fun ch => ?_, (exec_counted hx hs).bits, (exec_counted hx hs).vals⟩,
    fun s t hp hx => ?_⟩
  · rw [(exec_digitizes hx hs ch).regs, CmpRegs.foldl_sample_n, length_takenSample]
  · cases exec_cases hx with
    | protocol _ _ h => exact absurd (beq_iff_eq.mp h) hp
    | opened | notOpened => exact ⟨rfl, rfl, rfl, rfl⟩

end Sys2Proof.Machine
end

section
/-! PROOFS. 70_reset_and_hazards.md R190 to R194: a reset leaves the reset state and a placed word is the next
operation, both by the first action presented; `CFGW` alone writes the configuration; `START` reads nothing of what went
before it but the configuration (`execStart_eq_of_cfg`), so neither do the operations behind it. -/

namespace Sys2Proof.Machine

/-! ## The next action -/

/-- A number that the table's decoder reads is an operation word that decodes to the operation. -/
theorem decodeTableWord_eq_some {nbits w : Nat} {i : Instr} (h : decodeTableWord nbits w = some i) :
    ∃ v, opWordOfNat (w % 2 ^ nbits) = .ok v ∧ decode v = i := by
  unfold decodeTableWord decodeNat at h
  cases hv : opWordOfNat (w % 2 ^ nbits) with
  | error r => simp [hv] at h
  | ok v =>
    simp only [hv, Option.some.injEq] at h
    exact ⟨v, rfl, h⟩

theorem withFetchWord_of_ok {s : State} {nbits w : Nat} {v : OpWord} (h : opWordOfNat (w % 2 ^ nbits) = .ok v) :
    s.withFetchWord nbits w = s.withInputs (.pins false v :: s.inputs) := by
  simp only [State.withFetchWord, h]
  rfl

/-- Settles O7: the placed word is the first action presented, and the actions behind it are those of before. -/
theorem placedWordIsExecutedNext : Obligations.PlacedWordIsExecutedNext := by
  refine ⟨fun s nbits w i h => ?_, fun s h => by simp only [step, h]⟩
  obtain ⟨v, hv, rfl⟩ := decodeTableWord_eq_some h
  rw [withFetchWord_of_ok hv]
  exact step_cons (x := .pins false v) rfl

/-- Settles O9: either form of a reset is the `RESET` action, and the reset state executes what is presented. -/
theorem resetIsComplete : Obligations.ResetIsComplete := by
  intro s x w rest hx hs
  have haction : actionOf decode x = .reset := by
    obtain rfl | rfl := hx <;> rfl
  refine ⟨?_, rfl, rfl, rfl, rfl, rfl, rfl, rfl, fun i rest' hrest => step_cons (x := .op i) hrest⟩
  rw [step_cons hs, haction]
  rfl

/-! ## The configuration -/

/-- Settles O24: neither a sample beat nor an operation without a sample other than `CFGW` writes the configuration. -/
theorem configurationIsFrozenInRun : Obligations.ConfigurationIsFrozenInRun := by
  refine ⟨fun i s t hx hne => ⟨fun hp => hne (exec_cfg_of_run hp hx), ?_⟩,
    fun w s hp => (cfgwWritesTheNamedRegister s).1 w (.inl hp)⟩
  by_contra hw
  cases hi : isBeat i with
  | true =>
    obtain ⟨hcfg, -⟩ := exec_beat_frame hi hx
    exact hne hcfg
  | false =>
    obtain ⟨-, hcfg⟩ := exec_control_host hi hx
    exact hne (hcfg fun w h => hw ⟨w, h⟩)

/-! ## One run after another -/

/-- Outside `RUN`, `START` reads nothing of the state but the configuration and leaves the actions to come. -/
theorem execStart_eq_of_cfg {s s' : State} (hp : s.phase ≠ .run) (hp' : s'.phase ≠ .run) (hc : s'.cfg = s.cfg) :
    execStart s' = execStart (s.withInputs s'.inputs) := by
  have hp₀ : (s.withInputs s'.inputs).phase ≠ .run := hp
  have hrun (p : Phase) : { s'.quiet.clearRun with phase := p }
      = { (s.withInputs s'.inputs).quiet.clearRun with phase := p } := by
    simp [State.clearRun, State.quiet, State.withInputs, hc]
  cases hl : s.cfg.legal with
  | true => rw [execStart_of_legal hp' (hc ▸ hl), execStart_of_legal hp₀ hl, hrun]
  | false =>
    rw [execStart_of_illegal hp' (hc ▸ hl), execStart_of_illegal hp₀ hl]
    exact congrArg (fun t => Host.Outcome.next { t.raise .cfg with events := [.fin .badConfig] }) (hrun .done)

/-- A sequence of operations that ends does the same with other actions to come, and leaves them. -/
theorem runOps_withInputs {ops : List Instr} {s t : State} {es : List Event} (h : runOps ops s = .next (t, es))
    (r : List Input) : runOps ops (s.withInputs r) = .next (t.withInputs r, es) := by
  induction ops generalizing s es with
  | nil =>
    cases h
    rfl
  | cons i ops ih =>
    obtain ⟨u, es', hx, hrun, rfl⟩ := runOps_cons_next h
    have hx' : exec i (s.withInputs r) = .next (u.withInputs r) := by
      rw [exec_withInputs, hx]
      rfl
    rw [runOps_cons_of_next hx', ih hrun]
    rfl

/-- Settles O51: behind `START` the two runs differ in the actions to come alone. -/
theorem runsDoNotInfluenceEachOther : Obligations.RunsDoNotInfluenceEachOther := by
  intro ops s s' t es hp hp' hc hrun
  have hstart : exec .start s' = exec .start (s.withInputs s'.inputs) := execStart_eq_of_cfg hp hp' hc
  have hsame : runOps (.start :: ops) s' = runOps (.start :: ops) (s.withInputs s'.inputs) := by
    simp only [runOps, hstart]
  exact hsame.trans (runOps_withInputs hrun s'.inputs)

end Sys2Proof.Machine
end
